-- ==== Sys2Proof/Word.lean ====
section
/-!
DEFINITION. The two data shapes of the block: a 32-bit word and a bit string.
-/

namespace Sys2Proof

/-- A command register (00_scope.md R7 CMDW and LENW, R8): 32 bits, bit 0 least significant. -/
abbrev Word := BitVec 32

/-- A bit string (00_scope.md R9): index 0 is the left end, the first transmitted and the most
significant; `true` is the character '1'. -/
abbrev Bits := List Bool

end Sys2Proof
end

