-- ==== Sys2Proof/Machine/Bits.lean ====
section
/-!
DEFINITION. The bit-string notation of 00_scope.md R9 and the integer helpers of R11.
-/

namespace Sys2Proof.Machine

/-- `s[i..j)`, the characters at indices i up to but not including j (00_scope.md R9). -/
def sub (s : Bits) (i j : Nat) : Bits := (s.take j).drop i

/-- `zeros(w)` (00_scope.md R9). -/
def zeros (w : Nat) : Bits := List.replicate w false

/-- `ones(w)` (00_scope.md R9). -/
def ones (w : Nat) : Bits := List.replicate w true

/-- `val(s)`, the number s spells with `s[0]` the most significant bit (00_scope.md R9). -/
def val (s : Bits) : Nat := s.foldl (fun v b => 2 * v + b.toNat) 0

/-- `bin(v, w)`, the bit string of length w that spells v, for `v < 2^w` (00_scope.md R9). -/
def bin (v w : Nat) : Bits := (List.range w).map fun i => v.testBit (w - 1 - i)

/-- `xor(a, b)` for strings of one length (00_scope.md R9). -/
def xorBits (a b : Bits) : Bits := List.zipWith Bool.xor a b

/-- `not(a)` (00_scope.md R9). -/
def notBits (a : Bits) : Bits := a.map not

/-- `ceil(a / b)` for b > 0 (00_scope.md R11). -/
def ceilDiv (a b : Nat) : Nat := (a + b - 1) / b

/-- `bitlen(v)`, the least j with `v < 2^j` (40_shared_primitives.md R81). -/
def bitlen (v : Nat) : Nat := if v = 0 then 0 else Nat.log2 v + 1

/-- `fmtBin(v, width)` (40_shared_primitives.md R81): exactly `width` characters when v fits, and as many
as v needs when it does not; never truncated. -/
def fmtBin (v width : Nat) : Bits := if v < 2 ^ width then bin v width else bin v (bitlen v)

end Sys2Proof.Machine
end

