-- ==== Sys2Proof/Syntax.lean ====
section
/-!
DEFINITION. The syntax of commands: symbols, the eight operations as one constructor per row of the
opcode table, and the command value the HOST presents.
-/

namespace Sys2Proof

/-- The four symbol classes of an input cell (00_scope.md R10, 30_encoding.md R56). -/
inductive Symbol where
  /-- S0, the character '0' -/
  | s0
  /-- S1, the character '1' -/
  | s1
  /-- SW, one whitespace character -/
  | sw
  /-- SX, any other character -/
  | sx
  deriving DecidableEq, Repr

/-- The parity kind PK, W0[3] (30_encoding.md R54). -/
inductive ParityKind where
  | even
  | odd
  deriving DecidableEq, Repr

/-- The eight opcodes (30_encoding.md R58). -/
inductive Op where
  | parEnc
  | parVer
  | csumEnc
  | csumVer
  | lrcEnc
  | lrcVer
  | crcEnc
  | crcVer
  deriving DecidableEq, Repr

/-- An instruction: what the command word W0 says, one constructor per row of spec/opcode_table.json
(30_encoding.md R54, R58). `pk` is PK and `n` is N, the signed block size. A field the operation ignores
(R59) is kept, so that a word and its instruction determine each other. The remaining operands PLEN,
GLEN, IN and GEN are registers and buffers, read when the instruction runs (R57). -/
inductive Instr where
  /-- PAR.ENC (41_parity_encoder.md R86) -/
  | parEnc (pk : ParityKind) (n : Int)
  /-- PAR.VER (45_verify_reduce_and_predicate.md R121) -/
  | parVer (pk : ParityKind) (n : Int)
  /-- CSUM.ENC (42_checksum_encoder.md R96); PK ignored -/
  | csumEnc (pk : ParityKind) (n : Int)
  /-- CSUM.VER (45_verify_reduce_and_predicate.md R123); PK ignored -/
  | csumVer (pk : ParityKind) (n : Int)
  /-- LRC.ENC (43_lrc_encoder.md R104); PK ignored -/
  | lrcEnc (pk : ParityKind) (n : Int)
  /-- LRC.VER (45_verify_reduce_and_predicate.md R125); PK ignored -/
  | lrcVer (pk : ParityKind) (n : Int)
  /-- CRC.ENC (44_crc_divider.md R112); PK and N ignored -/
  | crcEnc (pk : ParityKind) (n : Int)
  /-- CRC.VER (45_verify_reduce_and_predicate.md R127); PK and N ignored -/
  | crcVer (pk : ParityKind) (n : Int)
  deriving DecidableEq, Repr

/-- A command, the value `(W0, PLEN, GLEN, IN[0..PLEN), GEN[0..GLEN))` of 10_state.md R19. -/
structure Command where
  /-- W0 -/
  w0 : Word
  /-- PLEN, the number of symbols in IN -/
  plen : Word
  /-- GLEN, the number of symbols in GEN -/
  glen : Word
  /-- IN[0..PLEN), cell 0 first -/
  inBuf : List Symbol
  /-- GEN[0..GLEN), cell 0 first -/
  genBuf : List Symbol
  deriving DecidableEq, Repr

end Sys2Proof
end

