-- ==== Sys2Proof/Config.lean ====
section
/-!
DEFINITION. What an implementation fixes and the spec leaves open.
PACK and BASE (00_scope.md R7) are outside the model and have no definition here.
-/

namespace Sys2Proof

/-- Cap, the commands an implementation has room for (00_scope.md R7, 70_reset_and_hazards.md R170):
an open predicate, one for each implementation `k`. It has no body, so no proof can rest on which commands
an implementation takes. The reference instance does not use it (log 7). -/
opaque Config.cap : Nat → Command → Bool

end Sys2Proof
end

