-- ==== Sys2Proof/WellFormed.lean ====
section
/-!
DEFINITION. What makes an instruction and a command well formed: the checks plain data does not carry.
-/

namespace Sys2Proof

/-- The block size field of an instruction, whether the operation uses it or not (30_encoding.md R54). -/
def Instr.blockSize : Instr → Int
  | .parEnc _ n => n
  | .parVer _ n => n
  | .csumEnc _ n => n
  | .csumVer _ n => n
  | .lrcEnc _ n => n
  | .lrcVer _ n => n
  | .crcEnc _ n => n
  | .crcVer _ n => n

/-- N is a 16-bit two's complement integer, -32768 to 32767 (30_encoding.md R54; 00_scope.md R7 NW). -/
abbrev Instr.WellFormed (i : Instr) : Prop := -32768 ≤ i.blockSize ∧ i.blockSize ≤ 32767

/-- A command has exactly PLEN cells in IN and GLEN cells in GEN (10_state.md R19, R20). -/
abbrev Command.WellFormed (c : Command) : Prop :=
  c.inBuf.length = c.plen.toNat ∧ c.genBuf.length = c.glen.toNat

end Sys2Proof
end

