-- ==== Sys2Proof/Decode.lean ====
section
/-!
DEFINITION. The encodings of 30_encoding.md: symbol codes, the fields of the command word W0, the decoder,
and after it the encoder.
-/

namespace Sys2Proof

/-! ### Codes of the fields (R54, R56, R58) -/

/-- The class a 2-bit cell code stands for (30_encoding.md R56). -/
def Symbol.ofCode (c : BitVec 2) : Symbol :=
  match c.getLsbD 1, c.getLsbD 0 with
  | false, false => .s0
  | false, true => .s1
  | true, false => .sw
  | true, true => .sx

/-- The 2-bit code of a cell (30_encoding.md R56). -/
def Symbol.code : Symbol → BitVec 2
  | .s0 => 0b00#2
  | .s1 => 0b01#2
  | .sw => 0b10#2
  | .sx => 0b11#2

/-- PK: 0 even, 1 odd (30_encoding.md R54). -/
def ParityKind.ofBit : Bool → ParityKind
  | false => .even
  | true => .odd

/-- PK as the bit W0[3] (30_encoding.md R54). -/
def ParityKind.bit : ParityKind → Bool
  | .even => false
  | .odd => true

/-- The operation an opcode selects, `OP = 2*CODEC + DIR` (30_encoding.md R54, R58). -/
def Op.ofCode (c : BitVec 3) : Op :=
  match c.getLsbD 2, c.getLsbD 1, c.getLsbD 0 with
  | false, false, false => .parEnc
  | false, false, true => .parVer
  | false, true, false => .csumEnc
  | false, true, true => .csumVer
  | true, false, false => .lrcEnc
  | true, false, true => .lrcVer
  | true, true, false => .crcEnc
  | true, true, true => .crcVer

/-- The opcode of an operation (30_encoding.md R58, the table). -/
def Op.code : Op → BitVec 3
  | .parEnc => 0b000#3
  | .parVer => 0b001#3
  | .csumEnc => 0b010#3
  | .csumVer => 0b011#3
  | .lrcEnc => 0b100#3
  | .lrcVer => 0b101#3
  | .crcEnc => 0b110#3
  | .crcVer => 0b111#3

/-- The LRC operations, which strip whitespace (60_exceptions.md R147, `lrc`). -/
def Op.isLrc : Op → Bool
  | .lrcEnc | .lrcVer => true
  | .parEnc | .parVer | .csumEnc | .csumVer | .crcEnc | .crcVer => false

/-- The CRC operations, which take a polynomial and no block size (60_exceptions.md R147, `crc`). -/
def Op.isCrc : Op → Bool
  | .crcEnc | .crcVer => true
  | .parEnc | .parVer | .csumEnc | .csumVer | .lrcEnc | .lrcVer => false

/-- The parity operations, the only ones that use PK (30_encoding.md R54). -/
def Op.isParity : Op → Bool
  | .parEnc | .parVer => true
  | .csumEnc | .csumVer | .lrcEnc | .lrcVer | .crcEnc | .crcVer => false

/-- The verify operations, DIR = 1 (30_encoding.md R54). -/
def Op.isVerify : Op → Bool
  | .parVer | .csumVer | .lrcVer | .crcVer => true
  | .parEnc | .csumEnc | .lrcEnc | .crcEnc => false

/-! ### The operation and the operand fields of an instruction -/

/-- The operation of an instruction. -/
def Instr.op : Instr → Op
  | .parEnc _ _ => .parEnc
  | .parVer _ _ => .parVer
  | .csumEnc _ _ => .csumEnc
  | .csumVer _ _ => .csumVer
  | .lrcEnc _ _ => .lrcEnc
  | .lrcVer _ _ => .lrcVer
  | .crcEnc _ _ => .crcEnc
  | .crcVer _ _ => .crcVer

/-- The PK field of an instruction, whether the operation uses it or not. -/
def Instr.kind : Instr → ParityKind
  | .parEnc pk _ => pk
  | .parVer pk _ => pk
  | .csumEnc pk _ => pk
  | .csumVer pk _ => pk
  | .lrcEnc pk _ => pk
  | .lrcVer pk _ => pk
  | .crcEnc pk _ => pk
  | .crcVer pk _ => pk

/-- The instruction of an operation and its two word fields. -/
def Instr.ofFields : Op → ParityKind → Int → Instr
  | .parEnc => .parEnc
  | .parVer => .parVer
  | .csumEnc => .csumEnc
  | .csumVer => .csumVer
  | .lrcEnc => .lrcEnc
  | .lrcVer => .lrcVer
  | .crcEnc => .crcEnc
  | .crcVer => .crcVer

/-! ### The fields of W0 (30_encoding.md R54) -/

/-- OP, `W0[2:0]`. -/
def opField (w : Word) : BitVec 3 := w.extractLsb' 0 3

/-- PK, `W0[3]`. -/
def pkField (w : Word) : ParityKind := .ofBit (w.getLsbD 3)

/-- RSV, `W0[15:4]`. -/
def rsvField (w : Word) : BitVec 12 := w.extractLsb' 4 12

/-- N, `W0[31:16]`, sign extended (30_encoding.md R54, R57). -/
def nField (w : Word) : Int := (w.extractLsb' 16 16).toInt

/-! ### The decoder -/

/-- Why a word is no instruction. -/
inductive DecodeError where
  /-- `W0[15:4] != 0`, the only illegal words (30_encoding.md R59); the field's value -/
  | reservedBits (rsv : BitVec 12)
  deriving DecidableEq, Repr

/-- The decoder: a word selects its operation by W0[2:0] alone, provided W0[15:4] = 0
(30_encoding.md R58, R59). It is total; a word with a reserved bit set is rejected by name. -/
def decode (w : Word) : Except DecodeError Instr :=
  if rsvField w = 0#12 then
    .ok (.ofFields (.ofCode (opField w)) (pkField w) (nField w))
  else
    .error (.reservedBits (rsvField w))

/-- What `decode` reads from an opcode-table word: a command word is one 32-bit register, so the low 32
bits are the word and there is no byte order to choose (20_memory.md R39). Bits from `nbits` up are 0. -/
def decodeTableWord (nbits w : Nat) : Option Instr :=
  match decode (BitVec.ofNat 32 (w % 2 ^ nbits)) with
  | .ok i => some i
  | .error _ => none

/-! ### The encoder -/

/-- The word of an instruction (30_encoding.md R54, R67): N, twelve zeros, PK, OP. -/
def encode (i : Instr) : Word :=
  BitVec.ofInt 16 i.blockSize ++ 0#12 ++ BitVec.ofBool i.kind.bit ++ i.op.code

end Sys2Proof
end

