-- ==== Sys2Proof/Machine/State.lean ====
section
/-!
DEFINITION. The state of one instance of the block (10_state.md R16), the response it holds, the HOST's
coming moves, the reasons a step can be refused, and the state after reset.
-/

namespace Sys2Proof.Machine

/-! ### The response -/

/-- A trace record, one of the seven kinds of 30_encoding.md R63 (KIND 7 is reserved and has no
constructor). Counts and indices are unbounded naturals (R64). -/
inductive TraceRec where
  /-- T_PAR: block index, block, its 1-count, its parity bit -/
  | tPar (idx : Nat) (data : Bits) (ones : Nat) (pbit : Bool)
  /-- T_PARV: chunk index, chunk without its last bit, 1-count of that, expected, received, ok -/
  | tParv (idx : Nat) (data : Bits) (ones : Nat) (expected received ok : Bool)
  /-- T_ADD: index of the block added, sum before, block, raw sum in n+1 bits, carry, sum after -/
  | tAdd (idx : Nat) (a b raw : Bits) (carry : Bool) (res : Bits)
  /-- T_CPL: sum, checksum -/
  | tCpl (sum checksum : Bits)
  /-- T_COL: column index, its 1-count, its LRC bit -/
  | tCol (col count : Nat) (bit : Bool)
  /-- T_COLV: column index, its 1-count over all rows, ok -/
  | tColv (col count : Nat) (ok : Bool)
  /-- T_XOR: position of the window's first bit, window before, window after -/
  | tXor (pos : Nat) (before after : Bits)
  deriving DecidableEq, Repr

/-- A result record (30_encoding.md R61). `perBlock` and `perColumn` are names for the trace and are not
stored a second time (R61). -/
inductive Result where
  | parEnc (blocks : List Bits) (frame : Bits)
  | parVer (blocks : List Bits) (isValid : Bool)
  | csumEnc (blocks : List Bits) (sum checksum frame : Bits)
  | csumVer (blocks : List Bits) (sum : Bits) (isValid : Bool)
  | lrcEnc (blocks : List Bits) (lrc frame : Bits)
  | lrcVer (blocks : List Bits) (isValid : Bool)
  | crcEnc (appendedData remainder frame : Bits)
  | crcVer (remainder : Bits) (isValid : Bool)
  deriving DecidableEq, Repr

/-- The error statuses (60_exceptions.md R143). An error records nothing but its kind (R145). -/
inductive ErrorKind where
  | invalidInput
  | invalidConfig
  | illegalCommand
  deriving DecidableEq, Repr

/-- A response (10_state.md R23): STATUS OK with RESULT and TRACE, or another STATUS alone (30_encoding.md
R65). -/
inductive Response where
  | ok (result : Result) (trace : List TraceRec)
  | error (kind : ErrorKind)
  deriving DecidableEq, Repr

/-! ### The working registers -/

/-- PHASE, where an operation is in its sequence (10_state.md R25): the phases of R26 and R27, and one
loop each for the parity and the LRC operations, to which R28 gives no phase names (log 13). -/
inductive Phase where
  /-- R26 Start -/
  | start
  /-- R26 Add block -/
  | add
  /-- R26 Complement -/
  | complement
  /-- the loop over blocks or chunks of the parity operations (R28) -/
  | blocks
  /-- the loop over columns of the LRC operations (R28) -/
  | columns
  /-- R27 AppendZeros -/
  | appendZeros
  /-- R27 XorDivide -/
  | xorDivide
  /-- R27 Remainder -/
  | remainder
  /-- R26, R27 Assemble: the operation's last phase -/
  | assemble
  deriving DecidableEq, Repr

/-- The working registers (10_state.md R16, R25). No HOST can see them and no operation reads one that it
has not written (R25). -/
structure Work where
  /-- PHASE -/
  phase : Phase
  /-- BLK[0..m) -/
  blk : List Bits
  /-- the block index, the loop index R18 names -/
  bidx : Nat
  /-- ACC, the running checksum sum -/
  acc : Nat
  /-- COL, the current column index -/
  col : Nat
  /-- COL, the 1-count of the column last counted -/
  colCount : Nat
  /-- SCR, the scratch copy of the dividend -/
  scr : Bits
  /-- POS, the scan position in SCR -/
  pos : Nat
  deriving DecidableEq, Repr

/-! ### The HOST and the implementation -/

/-- Which Cap holds (00_scope.md R7): the reference instance, which takes every command, or an open
implementation, whose Cap is `Config.cap k` (log 7). -/
inductive Capacity where
  | reference
  | implementation (k : Nat)
  deriving DecidableEq, Repr

/-- A step taken from outside the block. -/
inductive HostMove where
  /-- `issue(c)` (10_state.md R29) -/
  | issue (c : Command)
  /-- `read` (10_state.md R31) -/
  | read
  /-- the reset event (70_reset_and_hazards.md R161, R162); when it comes is the model's choice (log 24) -/
  | reset
  deriving DecidableEq, Repr

/-- The HOST (10_state.md R15), as the step sees it: the moves it will make, first one first, and the
responses its reads have returned, oldest first (log 3, log 16). No part of the block reads it. -/
structure HostAgent where
  moves : List HostMove
  received : List Response
  deriving DecidableEq, Repr

/-! ### Ways a step can stop -/

/-- The reasons the machine stops with a fault: none. Every error of the spec is a status in an ordinary
response (60_exceptions.md R142, R152), so nothing raises a fault and the type is empty (log 21). -/
inductive Fault where
  deriving DecidableEq, Repr

/-- The reasons a step has no meaning. -/
inductive Refusal where
  /-- Raised by `exec` for an instruction that has no meaning yet. Safe. -/
  | notModelled (mnemonic : String)
  /-- Raised by CRC.VER on a frame shorter than k - 1 bits, for which no response is specified and a model
  refuses the command (60_exceptions.md R151). Safe. -/
  | crcShortFrame
  /-- Raised by `issue` of a command for which Cap is false: the step is not enabled
  (70_reset_and_hazards.md R170). Safe. -/
  | outsideCapacity
  /-- Raised by `issue` of a value whose buffers do not have PLEN and GLEN cells, which is no command
  (10_state.md R19). Safe. -/
  | notACommand
  /-- Raised by `read` when no response is present (70_reset_and_hazards.md R168). Safe. -/
  | readAbsent
  deriving DecidableEq, Repr

/-! ### The state -/

/-- The state of one instance (10_state.md R16) and of the HOST that drives it. RESP.PRESENT is whether
`resp` is `some`; when it is 0 the other RESP fields hold no value (R22). -/
structure State where
  /-- W0 -/
  w0 : Word
  /-- PLEN -/
  plen : Word
  /-- GLEN -/
  glen : Word
  /-- IN[0..PLEN), cell 0 first -/
  inBuf : List Symbol
  /-- GEN[0..GLEN), cell 0 first -/
  genBuf : List Symbol
  /-- BUSY -/
  busy : Bool
  /-- RESP -/
  resp : Option Response
  /-- PHASE, BLK, ACC, COL, SCR, POS -/
  work : Work
  /-- Cap; no step changes it -/
  capacity : Capacity
  /-- the HOST -/
  host : HostAgent
  deriving DecidableEq, Repr

/-- The working registers at reset: unspecified by 10_state.md R36, DESIGN CHOICE (log 2). -/
def Work.reset : Work where
  phase := .start
  blk := []
  bidx := 0
  acc := 0
  col := 0
  colCount := 0
  scr := []
  pos := 0

/-- The machine right after reset (10_state.md R36, 70_reset_and_hazards.md R161): idle, no response. The
command registers and buffers are unspecified there: zero and empty, DESIGN CHOICE (log 1). -/
def State.reset : State where
  w0 := 0#32
  plen := 0#32
  glen := 0#32
  inBuf := []
  genBuf := []
  busy := false
  resp := none
  work := Work.reset
  capacity := .reference
  host := { moves := [], received := [] }

end Sys2Proof.Machine
end

