-- ==== Sys2Proof/Machine/Ops.lean ====
section
/-!
DEFINITION. The operations on registers, buffers and response that the steps and meanings share: reading
the buffers, writing a response, taking an error, and the HOST's moves.
-/

namespace Sys2Proof.Machine

/-! ### The command registers and buffers -/

/-- One cell of a buffer; a cell at or above the length is not part of the command (10_state.md R20). -/
def readCell (buf : List Symbol) (i : Nat) : Option Symbol := buf[i]?

/-- `MemRead(B[0], len)`: the first `len` cells of a buffer, lowest index first (00_scope.md R11,
20_memory.md R44). -/
def memRead (buf : List Symbol) (len : Word) : List Symbol := buf.take len.toNat

/-- `raw`, the payload as presented (30_encoding.md R57). -/
def State.raw (s : State) : List Symbol := memRead s.inBuf s.plen

/-- `g0`, the polynomial as presented (30_encoding.md R57). -/
def State.g0 (s : State) : List Symbol := memRead s.genBuf s.glen

/-- The command the registers hold (10_state.md R19). -/
def State.command (s : State) : Command where
  w0 := s.w0
  plen := s.plen
  glen := s.glen
  inBuf := s.inBuf
  genBuf := s.genBuf

/-- The canonical form of the two buffers: exactly PLEN and GLEN cells (10_state.md R20). -/
def Memory.wf (s : State) : Bool :=
  s.inBuf.length == s.plen.toNat && s.genBuf.length == s.glen.toNat

/-- The registers take a command, all five parts at once (10_state.md R19, R29). -/
def loadCommand (c : Command) (s : State) : State :=
  { s with w0 := c.w0, plen := c.plen, glen := c.glen, inBuf := c.inBuf, genBuf := c.genBuf,
           busy := true, resp := none }

/-! ### Ending a command -/

/-- `complete` with status OK: RESP written whole, BUSY cleared (10_state.md R30). The working registers
keep what the operation left in them. -/
def State.finish (result : Result) (trace : List TraceRec) (work : Work) (s : State) : State :=
  { s with busy := false, resp := some (.ok result trace), work := work }

/-- Taking an error (60_exceptions.md R152): `RESP <- {STATUS: kind}; RESP.PRESENT <- 1; BUSY <- 0`.
Nothing is saved and nothing else changes. There is no return from it (R153): the block is idle again and
the next `issue` is enabled as after a success. -/
def State.raise (kind : ErrorKind) (s : State) : State :=
  { s with busy := false, resp := some (.error kind) }

/-! ### The HOST's moves -/

/-- Cap(c) (00_scope.md R7, 70_reset_and_hazards.md R170). -/
def admits (cap : Capacity) (c : Command) : Bool :=
  match cap with
  | .reference => true
  | .implementation k => Config.cap k c

/-- The HOST has made its first move; `rest` is what it will do. -/
def State.hostNext (rest : List HostMove) (s : State) : State :=
  { s with host := { s.host with moves := rest } }

/-- Step `issue(c)` (10_state.md R29), with BUSY = 0. -/
def issue (c : Command) (rest : List HostMove) (s : State) : Host.Outcome State Fault Refusal :=
  if ¬ c.WellFormed then .refused .notACommand
  else if admits s.capacity c then .next ((loadCommand c s).hostNext rest)
  else .refused .outsideCapacity

/-- Step `read` (10_state.md R31), with BUSY = 0: the HOST gets the response and the block is unchanged. -/
def readResponse (rest : List HostMove) (s : State) : Host.Outcome State Fault Refusal :=
  match s.resp with
  | some r => .next { s with host := { moves := rest, received := s.host.received ++ [r] } }
  | none => .refused .readAbsent

/-- The reset event (70_reset_and_hazards.md R161, R162): the instance is as after reset, whatever it was
doing; a command in flight is abandoned. The HOST and the instance's capacity are not reset (log 15). -/
def resetInstance (rest : List HostMove) (s : State) : State :=
  { State.reset with capacity := s.capacity, host := { s.host with moves := rest } }

/-! ### Placing a command word -/

/-- `k` cells read from consecutive 2-bit codes of a number, lowest first (30_encoding.md R56). -/
def cellsOf (v : Nat) : Nat → List Symbol
  | 0 => []
  | k + 1 => .ofCode (BitVec.ofNat 2 v) :: cellsOf (v / 4) k

/-- The command laid out in a number as the opcode table's fields order it: W0, PLEN (word 1), GLEN
(word 2), then the cells of IN and of GEN (log 12). -/
def commandOfNat (v : Nat) : Command :=
  let plen := BitVec.ofNat 32 (v / 2 ^ 32)
  let glen := BitVec.ofNat 32 (v / 2 ^ 64)
  { w0 := BitVec.ofNat 32 v, plen := plen, glen := glen,
    inBuf := cellsOf (v / 2 ^ 96) plen.toNat,
    genBuf := cellsOf (v / 2 ^ 96 / 4 ^ plen.toNat) glen.toNat }

/-- The state in which the command laid out in the low `nbits` bits of `w` has just been issued, with no
reset pending, so that the very next step completes it (log 12). -/
def placeCommand (s : State) (nbits w : Nat) : State :=
  (loadCommand (commandOfNat (w % 2 ^ nbits)) s).hostNext
    (s.host.moves.dropWhile fun m => m == .reset)

end Sys2Proof.Machine
end

