-- ==== Sys2Proof/Machine/Operands.lean ====
section
/-!
DEFINITION. From symbols to operands: strip, validate, the check that runs before every operation, and the
two ways of cutting a bit string into blocks.
-/

namespace Sys2Proof.Machine

/-! ### Symbols and bits -/

/-- The symbol of a bit: S0 for '0', S1 for '1' (30_encoding.md R56). -/
def symbolOf (b : Bool) : Symbol := if b then .s1 else .s0

/-- The bit of a symbol S0 or S1 (00_scope.md R10). -/
def bitOf (c : Symbol) : Bool := c == .s1

/-- `bitsOf(p)` for a string of S0 and S1 (00_scope.md R10). -/
def bitsOf (p : List Symbol) : Bits := p.map bitOf

/-- Whether a symbol is S0 or S1. -/
def isBinary (c : Symbol) : Bool := c == .s0 || c == .s1

/-! ### Validation -/

/-- `strip(raw)`: every SW removed, the others kept in order (40_shared_primitives.md R74). -/
def strip (raw : List Symbol) : List Symbol := raw.filter fun c => c != .sw

/-- `validate(raw, allowWhitespace)` (40_shared_primitives.md R75); emptiness is tested after stripping
(R76). -/
def validate (raw : List Symbol) (allowWhitespace : Bool) : Bool :=
  let t := if allowWhitespace then strip raw else raw
  decide (t.length ≥ 1) && t.all isBinary

/-- What the check answers (60_exceptions.md R147). -/
inductive Checked where
  /-- the command ends with an error status -/
  | error (kind : ErrorKind)
  /-- no response is specified (R151) -/
  | refused
  /-- the operands: the payload p and, for the CRC operations, the polynomial g -/
  | ok (p g : Bits)
  deriving DecidableEq, Repr

/-- The check (60_exceptions.md R147), run before any operation. For the non-CRC operations g is not used
and is empty here; for the CRC operations n is not looked at. -/
def check (op : Op) (n : Int) (raw g0 : List Symbol) : Checked :=
  if ¬ validate raw op.isLrc then .error .invalidInput
  else if op.isCrc ∧ g0.any (fun c => c == .sw || c == .sx) then .error .invalidInput
  else if ¬ op.isCrc ∧ n ≤ 0 then .error .invalidConfig
  else if op.isCrc ∧ g0.length < 2 then .error .invalidConfig
  else if op.isCrc ∧ g0.head? ≠ some .s1 then .error .invalidConfig
  else
    let p := if op.isLrc then bitsOf (strip raw) else bitsOf raw
    let g := if op.isCrc then bitsOf g0 else []
    if op = .crcVer ∧ p.length < g.length - 1 then .refused else .ok p g

/-! ### Cutting into blocks -/

/-- `slice(p, w)`: consecutive pieces of width w, the last one possibly short and not padded
(40_shared_primitives.md R79; 20_memory.md R40). -/
def slice (p : Bits) (w : Nat) : List Bits :=
  (List.range (ceilDiv p.length w)).map fun b => sub p (b * w) (min ((b + 1) * w) p.length)

/-- `splitBlocks(p, size)`: the same cut with the last block '0'-padded on the right to `size`
(40_shared_primitives.md R77). -/
def splitBlocks (p : Bits) (size : Nat) : List Bits :=
  let m := ceilDiv p.length size
  let last := sub p ((m - 1) * size) p.length
  ((List.range (m - 1)).map fun b => sub p (b * size) ((b + 1) * size))
    ++ [last ++ zeros (size - last.length)]

/-! ### Running an operation under the check -/

/-- What an operation yields: its result record, its trace, and what it leaves in the working
registers. -/
structure Done where
  result : Result
  trace : List TraceRec
  work : Work
  deriving DecidableEq, Repr

/-- The common shape of a meaning (30_encoding.md R69, 10_state.md R30): the check of R147 on the command's
operands; an error status, the refusal of R151, or the operation on p and g, whose result is the response. -/
def runChecked (op : Op) (n : Int) (s : State) (operation : Bits → Bits → Done) :
    Host.Outcome State Fault Refusal :=
  match check op n s.raw s.g0 with
  | .error kind => .next (s.raise kind)
  | .refused => .refused .crcShortFrame
  | .ok p g => .next (s.finish (operation p g).result (operation p g).trace (operation p g).work)

end Sys2Proof.Machine
end

