-- ==== Sys2Proof/Machine/Flags.lean ====
section
/-!
DEFINITION. Counting, and the flags of 10_state.md R24: pbit, ok per chunk, ok per column, carry, isValid.
-/

namespace Sys2Proof.Machine

/-- `countOnes(b)`, the number of '1' characters (40_shared_primitives.md R80). -/
def countOnes (b : Bits) : Nat := b.count true

/-- `parityBit(bits, pk)` (41_parity_encoder.md R85): the flag pbit. -/
def parityBit (bits : Bits) (pk : ParityKind) : Bool :=
  let ones := countOnes bits
  if (pk = .even ∧ ones % 2 = 0) ∨ (pk = .odd ∧ ones % 2 = 1) then false else true

/-- A chunk's data: all but its last bit (45_verify_reduce_and_predicate.md R121). -/
def chunkData (c : Bits) : Bits := sub c 0 (c.length - 1)

/-- A chunk's received parity bit: its last bit (45_verify_reduce_and_predicate.md R121). -/
def chunkParity (c : Bits) : Bool := c.getD (c.length - 1) false

/-- The flag ok of a chunk: expected bit equals received bit (45_verify_reduce_and_predicate.md R121). -/
def chunkOk (c : Bits) (pk : ParityKind) : Bool := parityBit (chunkData c) pk == chunkParity c

/-- `columnCount(rows, c)` (43_lrc_encoder.md R102). -/
def columnCount (rows : List Bits) (c : Nat) : Nat := rows.countP fun r => r.getD c false

/-- The LRC bit of a column: its count is odd (43_lrc_encoder.md R103). -/
def columnBit (rows : List Bits) (c : Nat) : Bool := columnCount rows c % 2 == 1

/-- The flag ok of a column: its count is even (45_verify_reduce_and_predicate.md R125). -/
def columnOk (rows : List Bits) (c : Nat) : Bool := columnCount rows c % 2 == 0

/-- The raw sum of `addWrap` (42_checksum_encoder.md R92). -/
def addRaw (a b : Nat) : Nat := a + b

/-- The carry of `addWrap`, `floor(raw / 2^n)` (42_checksum_encoder.md R92). -/
def addCarry (a b n : Nat) : Nat := addRaw a b / 2 ^ n

/-- The result of `addWrap`: the carry added back once into the low n bits (42_checksum_encoder.md R92). -/
def addRes (a b n : Nat) : Nat := addRaw a b % 2 ^ n + addCarry a b n

/-- `addWrap(a, b, n) -> (raw, carry, res)` (42_checksum_encoder.md R92). -/
def addWrap (a b n : Nat) : Nat × Nat × Nat := (addRaw a b, addCarry a b n, addRes a b n)

/-- isValid of the parity codec: AND over all chunks (45_verify_reduce_and_predicate.md R121). -/
def parityValid (chunks : List Bits) (pk : ParityKind) : Bool := chunks.all fun c => chunkOk c pk

/-- isValid of the checksum: the sum is all ones (45_verify_reduce_and_predicate.md R123). -/
def checksumValid (sum n : Nat) : Bool := sum == 2 ^ n - 1

/-- isValid of the LRC: AND over all columns (45_verify_reduce_and_predicate.md R125). -/
def lrcValid (rows : List Bits) (n : Nat) : Bool := (List.range n).all fun c => columnOk rows c

/-- isValid of the CRC: the remainder is all zeros (45_verify_reduce_and_predicate.md R127). -/
def crcValid (remainder g : Bits) : Bool := remainder == zeros (g.length - 1)

end Sys2Proof.Machine
end

