-- ==== Sys2Proof/Machine/Checksum.lean ====
section
/-!
DEFINITION. The 1's-complement checksum codec: CSUM.ENC (42_checksum_encoder.md R96) and CSUM.VER
(45_verify_reduce_and_predicate.md R123).
-/

namespace Sys2Proof.Machine

/-- The T_ADD record of adding block b, the i-th, to the sum a (30_encoding.md R63, 42_checksum_encoder.md
R94). -/
def addRecord (n i a : Nat) (b : Bits) : TraceRec :=
  .tAdd i (bin a n) b (bin (addRaw a (val b)) (n + 1)) (addCarry a (val b) n == 1)
    (bin (addRes a (val b) n) n)

/-- The loop of `fold` from block i on, with ACC = acc (42_checksum_encoder.md R94). -/
def foldFrom (n : Nat) : Nat → Nat → List Bits → Nat × List TraceRec
  | acc, _, [] => (acc, [])
  | acc, i, b :: bs =>
    let rest := foldFrom n (addRes acc (val b) n) (i + 1) bs
    (rest.1, addRecord n i acc b :: rest.2)

/-- `fold(blocks, n) -> (sum, trace)`, seeded with the first block (42_checksum_encoder.md R94). Its domain
has at least one block; the empty list, which no split gives, is sent to 0 (log 23). -/
def fold (blocks : List Bits) (n : Nat) : Nat × List TraceRec :=
  match blocks with
  | [] => (0, [])
  | b :: bs => foldFrom n (val b) 1 bs

/-- `onesComplement(s, n)`, `s XOR (2^n - 1)` (42_checksum_encoder.md R95). -/
def onesComplement (s n : Nat) : Nat := s ^^^ (2 ^ n - 1)

/-- The working registers after a checksum operation: BLK the split, ACC the final sum. -/
def afterFold (blocks : List Bits) (sum : Nat) (w : Work) : Work :=
  { w with phase := .assemble, blk := blocks, bidx := blocks.length, acc := sum }

/-- CSUM_ENC(p, n) (42_checksum_encoder.md R96). -/
def csumEnc (p : Bits) (n : Nat) (w : Work) : Done :=
  let blocks := splitBlocks p n
  let s := (fold blocks n).1
  let c := onesComplement s n
  { result := .csumEnc blocks (bin s n) (bin c n) (blocks.flatten ++ bin c n)
    trace := (fold blocks n).2 ++ [.tCpl (bin s n) (bin c n)]
    work := afterFold blocks s w }

/-- CSUM_VER(f, n) (45_verify_reduce_and_predicate.md R123). -/
def csumVer (f : Bits) (n : Nat) (w : Work) : Done :=
  let blocks := splitBlocks f n
  let s := (fold blocks n).1
  { result := .csumVer blocks (bin s n) (checksumValid s n)
    trace := (fold blocks n).2
    work := afterFold blocks s w }

/-- CSUM.ENC; PK is ignored (30_encoding.md R59). -/
def execCsumEnc (n : Int) (s : State) : Host.Outcome State Fault Refusal :=
  runChecked .csumEnc n s fun p _ => csumEnc p n.toNat s.work

/-- CSUM.VER; PK is ignored (30_encoding.md R59). -/
def execCsumVer (n : Int) (s : State) : Host.Outcome State Fault Refusal :=
  runChecked .csumVer n s fun f _ => csumVer f n.toNat s.work

end Sys2Proof.Machine
end

