-- ==== Sys2Proof/Machine/Crc.lean ====
section
/-!
DEFINITION. The CRC codec: the divider `xorDivide` (44_crc_divider.md R109), CRC.ENC (R112) and CRC.VER
(45_verify_reduce_and_predicate.md R127).
-/

namespace Sys2Proof.Machine

/-- The window of width k at `pos` (44_crc_divider.md R109). -/
def window (scr : Bits) (pos k : Nat) : Bits := sub scr pos (pos + k)

/-- The window after its XOR with the divisor (44_crc_divider.md R109). -/
def windowAfter (divisor scr : Bits) (pos : Nat) : Bits :=
  xorBits (window scr pos divisor.length) divisor

/-- SCR with the window at `pos` XORed with the divisor in place (44_crc_divider.md R109). -/
def xorAt (divisor scr : Bits) (pos : Nat) : Bits :=
  sub scr 0 pos ++ windowAfter divisor scr pos ++ scr.drop (pos + divisor.length)

/-- The T_XOR record of the XOR at `pos` (30_encoding.md R63). -/
def xorRecord (divisor scr : Bits) (pos : Nat) : TraceRec :=
  .tXor pos (window scr pos divisor.length) (windowAfter divisor scr pos)

/-- The scan of `xorDivide` over `count` positions from `pos`, with SCR = scr: an XOR and a record where
the bit is '1' now, nothing where it is '0' (44_crc_divider.md R109). -/
def scan (divisor : Bits) : (count pos : Nat) → (scr : Bits) → Bits × List TraceRec
  | 0, _, scr => (scr, [])
  | count + 1, pos, scr =>
    if scr.getD pos false then
      let rest := scan divisor count (pos + 1) (xorAt divisor scr pos)
      (rest.1, xorRecord divisor scr pos :: rest.2)
    else scan divisor count (pos + 1) scr

/-- How many positions the scan visits: `len - k + 1`, none when `len < k` (44_crc_divider.md R109). -/
def scanCount (dividend divisor : Bits) : Nat := dividend.length + 1 - divisor.length

/-- SCR and the trace after the whole scan (44_crc_divider.md R109). -/
def scanAll (dividend divisor : Bits) : Bits × List TraceRec :=
  scan divisor (scanCount dividend divisor) 0 dividend

/-- The trailing k - 1 bits of SCR (44_crc_divider.md R109). -/
def trailing (scr divisor : Bits) : Bits := scr.drop (scr.length - (divisor.length - 1))

/-- `xorDivide(dividend, divisor) -> (remainder, trace)` (44_crc_divider.md R109). Its domain is a dividend
of at least k - 1 bits (R111); the check of R147 keeps every use in it. -/
def xorDivide (dividend divisor : Bits) : Bits × List TraceRec :=
  (trailing (scanAll dividend divisor).1 divisor, (scanAll dividend divisor).2)

/-- The working registers after a CRC operation: SCR as the scan left it, POS after the last position. -/
def afterScan (dividend divisor : Bits) (w : Work) : Work :=
  { w with phase := .assemble, scr := (scanAll dividend divisor).1,
           pos := scanCount dividend divisor }

/-- CRC_ENC(p, g) (44_crc_divider.md R112). -/
def crcEnc (p g : Bits) (w : Work) : Done :=
  let a := p ++ zeros (g.length - 1)
  let r := (xorDivide a g).1
  { result := .crcEnc a r (p ++ r)
    trace := (xorDivide a g).2
    work := afterScan a g w }

/-- CRC_VER(f, g) (45_verify_reduce_and_predicate.md R127). -/
def crcVer (f g : Bits) (w : Work) : Done :=
  let r := (xorDivide f g).1
  { result := .crcVer r (crcValid r g)
    trace := (xorDivide f g).2
    work := afterScan f g w }

/-- CRC.ENC; PK and N are ignored (30_encoding.md R59), so the check is given 0 for n, which it does not
look at for this operation. -/
def execCrcEnc (s : State) : Host.Outcome State Fault Refusal :=
  runChecked .crcEnc 0 s fun p g => crcEnc p g s.work

/-- CRC.VER; PK and N are ignored (30_encoding.md R59). On a frame shorter than k - 1 bits the check
refuses (60_exceptions.md R151). -/
def execCrcVer (s : State) : Host.Outcome State Fault Refusal :=
  runChecked .crcVer 0 s fun f g => crcVer f g s.work

end Sys2Proof.Machine
end

