-- ==== Sys2Proof/Machine/Lrc.lean ====
section
/-!
DEFINITION. The LRC codec: LRC.ENC (43_lrc_encoder.md R104) and LRC.VER
(45_verify_reduce_and_predicate.md R125).
-/

namespace Sys2Proof.Machine

/-- `lrcOf(rows, n)`: the LRC bit of each column, column 0 first (43_lrc_encoder.md R103). -/
def lrcOf (rows : List Bits) (n : Nat) : Bits := (List.range n).map fun c => columnBit rows c

/-- The T_COL record of column c (30_encoding.md R63). -/
def lrcEncRecord (rows : List Bits) (c : Nat) : TraceRec :=
  .tCol c (columnCount rows c) (columnBit rows c)

/-- The T_COLV record of column c (30_encoding.md R63). -/
def lrcVerRecord (rows : List Bits) (c : Nat) : TraceRec :=
  .tColv c (columnCount rows c) (columnOk rows c)

/-- The working registers after an LRC operation: BLK the split, every column done, COL's count that of
the last column. -/
def afterColumns (rows : List Bits) (n : Nat) (w : Work) : Work :=
  { w with phase := .assemble, blk := rows, col := n, colCount := columnCount rows (n - 1) }

/-- LRC_ENC(p, n), p already stripped (43_lrc_encoder.md R104). -/
def lrcEnc (p : Bits) (n : Nat) (w : Work) : Done :=
  let blocks := splitBlocks p n
  { result := .lrcEnc blocks (lrcOf blocks n) (blocks.flatten ++ lrcOf blocks n)
    trace := (List.range n).map fun c => lrcEncRecord blocks c
    work := afterColumns blocks n w }

/-- LRC_VER(f, n), f already stripped (45_verify_reduce_and_predicate.md R125). -/
def lrcVer (f : Bits) (n : Nat) (w : Work) : Done :=
  let rows := splitBlocks f n
  { result := .lrcVer rows (lrcValid rows n)
    trace := (List.range n).map fun c => lrcVerRecord rows c
    work := afterColumns rows n w }

/-- LRC.ENC; PK is ignored (30_encoding.md R59). -/
def execLrcEnc (n : Int) (s : State) : Host.Outcome State Fault Refusal :=
  runChecked .lrcEnc n s fun p _ => lrcEnc p n.toNat s.work

/-- LRC.VER; PK is ignored (30_encoding.md R59). -/
def execLrcVer (n : Int) (s : State) : Host.Outcome State Fault Refusal :=
  runChecked .lrcVer n s fun f _ => lrcVer f n.toNat s.work

end Sys2Proof.Machine
end

