-- ==== Sys2Proof/Machine/Parity.lean ====
section
/-!
DEFINITION. The parity codec: PAR.ENC (41_parity_encoder.md R86) and PAR.VER
(45_verify_reduce_and_predicate.md R121).
-/

namespace Sys2Proof.Machine

/-- The T_PAR record of block i (30_encoding.md R63). -/
def parEncRecord (pk : ParityKind) (i : Nat) (b : Bits) : TraceRec :=
  .tPar i b (countOnes b) (parityBit b pk)

/-- The T_PARV record of chunk i (30_encoding.md R63). -/
def parVerRecord (pk : ParityKind) (i : Nat) (c : Bits) : TraceRec :=
  .tParv i (chunkData c) (countOnes (chunkData c)) (parityBit (chunkData c) pk) (chunkParity c)
    (chunkOk c pk)

/-- An output block of PAR.ENC: the block and its parity bit (41_parity_encoder.md R86). -/
def parityBlock (pk : ParityKind) (b : Bits) : Bits := b ++ [parityBit b pk]

/-- The frame of PAR.ENC: all output blocks in order (41_parity_encoder.md R86). -/
def parityFrame (pk : ParityKind) (blocks : List Bits) : Bits := (blocks.map (parityBlock pk)).flatten

/-- The working registers after a parity operation: BLK holds the split and every block is done. -/
def afterBlocks (blocks : List Bits) (w : Work) : Work :=
  { w with phase := .assemble, blk := blocks, bidx := blocks.length }

/-- PAR_ENC(p, n, pk) (41_parity_encoder.md R86). -/
def parEnc (p : Bits) (n : Nat) (pk : ParityKind) (w : Work) : Done :=
  let blocks := slice p n
  { result := .parEnc blocks (parityFrame pk blocks)
    trace := blocks.zipIdx.map fun x => parEncRecord pk x.2 x.1
    work := afterBlocks blocks w }

/-- PAR_VER(f, n, pk) (45_verify_reduce_and_predicate.md R121): the chunk width is n + 1. -/
def parVer (f : Bits) (n : Nat) (pk : ParityKind) (w : Work) : Done :=
  let chunks := slice f (n + 1)
  { result := .parVer chunks (parityValid chunks pk)
    trace := chunks.zipIdx.map fun x => parVerRecord pk x.2 x.1
    work := afterBlocks chunks w }

/-- PAR.ENC. -/
def execParEnc (pk : ParityKind) (n : Int) (s : State) : Host.Outcome State Fault Refusal :=
  runChecked .parEnc n s fun p _ => parEnc p n.toNat pk s.work

/-- PAR.VER. -/
def execParVer (pk : ParityKind) (n : Int) (s : State) : Host.Outcome State Fault Refusal :=
  runChecked .parVer n s fun f _ => parVer f n.toNat pk s.work

end Sys2Proof.Machine
end

