-- ==== Sys2Proof/Machine/Dispatch.lean ====
section
/-!
DEFINITION. The meaning of every instruction, one arm per constructor of Instr (30_encoding.md R69).
-/

namespace Sys2Proof.Machine

def exec (i : Instr) (s : State) : Host.Outcome State Fault Refusal :=
  match i with
  | .parEnc pk n => Sys2Proof.Machine.execParEnc pk n s
  | .parVer pk n => Sys2Proof.Machine.execParVer pk n s
  | .csumEnc _ n => Sys2Proof.Machine.execCsumEnc n s
  | .csumVer _ n => Sys2Proof.Machine.execCsumVer n s
  | .lrcEnc _ n => Sys2Proof.Machine.execLrcEnc n s
  | .lrcVer _ n => Sys2Proof.Machine.execLrcVer n s
  | .crcEnc _ _ => Sys2Proof.Machine.execCrcEnc s
  | .crcVer _ _ => Sys2Proof.Machine.execCrcVer s

end Sys2Proof.Machine
end

