-- ==== Sys2Proof/Machine/Control.lean ====
section
/-!
DEFINITION. Which agent moves, and the BLOCK's step `complete`.
-/

namespace Sys2Proof.Machine

/-- Step `complete`, taken by the BLOCK when BUSY = 1 (10_state.md R30): the response is the function
`exec` of 30_encoding.md R69 on the command held. A word with a reserved bit set ends with IllegalCommand
before anything else of the command is looked at (60_exceptions.md R150). -/
def complete (s : State) : Host.Outcome State Fault Refusal :=
  match decode s.w0 with
  | .error _ => .next (s.raise .illegalCommand)
  | .ok i => exec i s

/-- A reset is the next thing to happen from outside. -/
def resetPending (s : State) : Bool := s.host.moves.head? == some .reset

/-- Whether a move is the issue of a command (10_state.md R29). -/
def HostMove.isIssue : HostMove → Bool
  | .issue _ => true
  | .read | .reset => false

/-- No command is left to issue among the HOST's coming moves; reads and resets may still come. -/
def noIssueLeft (moves : List HostMove) : Bool := moves.all fun m => !m.isIssue

/-- One step. A reset happens whatever the block is doing (70_reset_and_hazards.md R162). DESIGN CHOICE
(log 24): the spec leaves open when a reset comes, and here one that stands first always comes before
`complete`, so that issue, complete, reset with no read between has no list of moves. While BUSY = 1
the HOST has no `issue` and no `read` (10_state.md R29, R31): the BLOCK completes. While BUSY = 0 the HOST
makes its next move; with no move the block waits (R161, log 4). -/
def advance (s : State) : Host.Outcome State Fault Refusal :=
  match s.busy, s.host.moves with
  | _, .reset :: rest => .next (resetInstance rest s)
  | true, _ => complete s
  | false, [] => .next s
  | false, .issue c :: rest => issue c rest s
  | false, .read :: rest => readResponse rest s

end Sys2Proof.Machine
end

