-- ==== Sys2Proof/Machine/Step.lean ====
section
/-!
DEFINITION. The step, and placing an opcode-table word where the next step runs it.
-/

namespace Sys2Proof.Machine

/-- One step of the machine (10_state.md R29 to R31, 70_reset_and_hazards.md R161). -/
def step (s : State) : Host.Outcome State Fault Refusal := advance s

/-- The state in which the command whose bits are `w` has just been issued (log 12). -/
def State.withFetchWord (s : State) (nbits w : Nat) : State := placeCommand s nbits w

end Sys2Proof.Machine
end

