-- ==== Sys2Proof/Machine/Assembler.lean ====
section
/-!
DEFINITION. The assembler syntax of 30_encoding.md R67: a command line as a term and as text, and the
command it assembles to. There are no pseudo-operations (R68).
-/

namespace Sys2Proof.Machine

/-- A command line (30_encoding.md R67): only the operands the operation uses. -/
inductive Line where
  | parEnc (n : Int) (pk : ParityKind) (payload : List Symbol)
  | parVer (n : Int) (pk : ParityKind) (frame : List Symbol)
  | csumEnc (n : Int) (payload : List Symbol)
  | csumVer (n : Int) (frame : List Symbol)
  | lrcEnc (n : Int) (payload : List Symbol)
  | lrcVer (n : Int) (frame : List Symbol)
  | crcEnc (data polynomial : List Symbol)
  | crcVer (frame polynomial : List Symbol)
  deriving DecidableEq, Repr

/-- The instruction of a line; an ignored field is assembled as zero, that is PK = 0 and N = 0
(30_encoding.md R67). -/
def Line.instr : Line → Instr
  | .parEnc n pk _ => .parEnc pk n
  | .parVer n pk _ => .parVer pk n
  | .csumEnc n _ => .csumEnc .even n
  | .csumVer n _ => .csumVer .even n
  | .lrcEnc n _ => .lrcEnc .even n
  | .lrcVer n _ => .lrcVer .even n
  | .crcEnc _ _ => .crcEnc .even 0
  | .crcVer _ _ => .crcVer .even 0

/-- The symbols of IN. -/
def Line.payload : Line → List Symbol
  | .parEnc _ _ p | .parVer _ _ p | .csumEnc _ p | .csumVer _ p | .lrcEnc _ p | .lrcVer _ p => p
  | .crcEnc d _ | .crcVer d _ => d

/-- The symbols of GEN, empty for the non-CRC operations (30_encoding.md R67). -/
def Line.polynomial : Line → List Symbol
  | .parEnc .. | .parVer .. | .csumEnc .. | .csumVer .. | .lrcEnc .. | .lrcVer .. => []
  | .crcEnc _ g | .crcVer _ g => g

/-- The command of a line (30_encoding.md R67): the lengths of the strings give PLEN and GLEN. -/
def Line.assemble (a : Line) : Command where
  w0 := encode a.instr
  plen := BitVec.ofNat 32 a.payload.length
  glen := BitVec.ofNat 32 a.polynomial.length
  inBuf := a.payload
  genBuf := a.polynomial

/-! ### The text of a line -/

/-- '0' for S0, '1' for S1, '_' for SW, 'x' for SX (30_encoding.md R67). -/
def symbolOfChar : Char → Option Symbol
  | '0' => some .s0
  | '1' => some .s1
  | '_' => some .sw
  | 'x' => some .sx
  | _ => none

/-- The symbols of an unquoted string. -/
def symbolsOfChars : List Char → Option (List Symbol)
  | [] => some []
  | c :: cs =>
    match symbolOfChar c, symbolsOfChars cs with
    | some a, some as => some (a :: as)
    | _, _ => none

/-- A quoted symbol string. -/
def quoted (t : List Char) : Option (List Symbol) :=
  match t with
  | '"' :: rest =>
    if rest.getLast? = some '"' then symbolsOfChars rest.dropLast else none
  | _ => none

/-- A decimal digit. -/
def digitOf (c : Char) : Option Nat :=
  if 48 ≤ c.toNat ∧ c.toNat ≤ 57 then some (c.toNat - 48) else none

/-- Decimal digits read from the left, with `v` read so far. -/
def digitsFrom (v : Nat) : List Char → Option Nat
  | [] => some v
  | c :: cs =>
    match digitOf c with
    | some d => digitsFrom (10 * v + d) cs
    | none => none

/-- A decimal integer, negative allowed (30_encoding.md R67). -/
def decimal (t : List Char) : Option Int :=
  match t with
  | [] => none
  | ['-'] => none
  | '-' :: ds => (digitsFrom 0 ds).map fun v => -(v : Int)
  | ds => (digitsFrom 0 ds).map fun v => (v : Int)

/-- A parity kind. -/
def parityWord (t : List Char) : Option ParityKind :=
  if t = "even".toList then some .even
  else if t = "odd".toList then some .odd
  else none

/-- Operands are separated by commas; spaces around them do not count (log 22). -/
def operandsOf (t : List Char) : List (List Char) :=
  (t.filter fun c => c != ' ').splitOn ','

/-- A line with two operands, a block size and a string. -/
def sizedLine (make : Int → List Symbol → Line) (ops : List (List Char)) : Option Line :=
  match ops with
  | [a, b] =>
    match decimal a, quoted b with
    | some n, some p => some (make n p)
    | _, _ => none
  | _ => none

/-- A line with a block size, a parity kind and a string. -/
def parityLine (make : Int → ParityKind → List Symbol → Line) (ops : List (List Char)) : Option Line :=
  match ops with
  | [a, k, b] =>
    match decimal a, parityWord k, quoted b with
    | some n, some pk, some p => some (make n pk p)
    | _, _, _ => none
  | _ => none

/-- A line with two strings. -/
def polynomialLine (make : List Symbol → List Symbol → Line) (ops : List (List Char)) : Option Line :=
  match ops with
  | [a, b] =>
    match quoted a, quoted b with
    | some d, some g => some (make d g)
    | _, _ => none
  | _ => none

/-- The line a text spells (30_encoding.md R67): a mnemonic, a space, operands separated by commas. -/
def parseLine (t : List Char) : Option Line :=
  let mnemonic := t.takeWhile fun c => c != ' '
  let ops := operandsOf (t.dropWhile fun c => c != ' ')
  if mnemonic = "PAR.ENC".toList then parityLine .parEnc ops
  else if mnemonic = "PAR.VER".toList then parityLine .parVer ops
  else if mnemonic = "CSUM.ENC".toList then sizedLine .csumEnc ops
  else if mnemonic = "CSUM.VER".toList then sizedLine .csumVer ops
  else if mnemonic = "LRC.ENC".toList then sizedLine .lrcEnc ops
  else if mnemonic = "LRC.VER".toList then sizedLine .lrcVer ops
  else if mnemonic = "CRC.ENC".toList then polynomialLine .crcEnc ops
  else if mnemonic = "CRC.VER".toList then polynomialLine .crcVer ops
  else none

end Sys2Proof.Machine
end

