-- ==== Sys2Proof/Machine/Instances.lean ====
section
/-!
DEFINITION. Several instances: the product of models of one, with any one instance stepping at a time
(20_memory.md R51, 60_exceptions.md R159). They share no state and have no identifiers of their own.
-/

namespace Sys2Proof.Machine

/-- A system of instances, each with its own HOST. -/
structure System where
  instances : List State
  deriving DecidableEq, Repr

/-- The instance at place `k` takes one step and the others none. At a place where there is no instance
nothing happens (log 19). -/
def System.stepAt (k : Nat) (sys : System) : Host.Outcome System Fault Refusal :=
  match sys.instances[k]? with
  | none => .next sys
  | some s =>
    match step s with
    | .next t => .next { instances := sys.instances.set k t }
    | .fault r => .fault r
    | .refused r => .refused r

end Sys2Proof.Machine
end

