-- ==== Sys2Proof/Machine/Respond.lean ====
section
/-!
DEFINITION. The response as a function of the command alone (30_encoding.md R69, 10_state.md R32), with no
state in it: what the invariant and the session statements compare the machine with.
-/

namespace Sys2Proof.Machine

/-- The operation an instruction selects, on checked operands (30_encoding.md R69, the inner match). -/
def operate (i : Instr) (p g : Bits) (w : Work) : Done :=
  match i with
  | .parEnc pk n => parEnc p n.toNat pk w
  | .parVer pk n => parVer p n.toNat pk w
  | .csumEnc _ n => csumEnc p n.toNat w
  | .csumVer _ n => csumVer p n.toNat w
  | .lrcEnc _ n => lrcEnc p n.toNat w
  | .lrcVer _ n => lrcVer p n.toNat w
  | .crcEnc _ _ => crcEnc p g w
  | .crcVer _ _ => crcVer p g w

/-- The function `exec` of 30_encoding.md R69: the one response of a command, or none where no response is
specified (60_exceptions.md R151). -/
def respond (c : Command) : Option Response :=
  match decode c.w0 with
  | .error _ => some (.error .illegalCommand)
  | .ok i =>
    match check i.op i.blockSize (memRead c.inBuf c.plen) (memRead c.genBuf c.glen) with
    | .error kind => some (.error kind)
    | .refused => none
    | .ok p g => some (.ok (operate i p g Work.reset).result (operate i p g Work.reset).trace)

end Sys2Proof.Machine
end

