-- ==== Sys2Proof/Machine/Phases.lean ====
section
/-!
DEFINITION. The same operations split into one step per unit of work, over the working registers of
10_state.md R25: the order of work of R26 to R28. R30 allows a model to split `complete` so, and R25 says
the two are indistinguishable to the HOST; the machine's step does not use this file (log 14).
-/

namespace Sys2Proof.Machine

/-- A command being executed: its instruction and its checked operands (30_encoding.md R57). -/
structure Job where
  instr : Instr
  p : Bits
  g : Bits
  deriving DecidableEq, Repr

/-- An execution in progress: the working registers and the records emitted so far, oldest first. -/
structure Progress where
  work : Work
  trace : List TraceRec
  deriving DecidableEq, Repr

/-- The block size as a natural, at least 1 once an operation runs (30_encoding.md R57). -/
def Job.n (j : Job) : Nat := j.instr.blockSize.toNat

/-- The first phase of each operation (10_state.md R26 to R28). CRC.VER has no AppendZeros: its scratch
copy is the frame itself (R27). -/
def Job.begin (j : Job) (w : Work) : Progress where
  trace := []
  work :=
    match j.instr with
    | .parEnc _ _ => { w with phase := .blocks, blk := slice j.p j.n, bidx := 0 }
    | .parVer _ _ => { w with phase := .blocks, blk := slice j.p (j.n + 1), bidx := 0 }
    | .csumEnc _ _ => { w with phase := .start, blk := splitBlocks j.p j.n }
    | .csumVer _ _ => { w with phase := .start, blk := splitBlocks j.p j.n }
    | .lrcEnc _ _ => { w with phase := .columns, blk := splitBlocks j.p j.n, col := 0 }
    | .lrcVer _ _ => { w with phase := .columns, blk := splitBlocks j.p j.n, col := 0 }
    | .crcEnc _ _ => { w with phase := .appendZeros }
    | .crcVer _ _ => { w with phase := .xorDivide, scr := j.p, pos := 0 }

/-- The record a parity operation emits for block i (41_parity_encoder.md R86,
45_verify_reduce_and_predicate.md R121). -/
def Job.blockRecord (j : Job) (i : Nat) (b : Bits) : TraceRec :=
  if j.instr.op.isVerify then parVerRecord j.instr.kind i b else parEncRecord j.instr.kind i b

/-- The record an LRC operation emits for column c (43_lrc_encoder.md R104,
45_verify_reduce_and_predicate.md R125). -/
def Job.columnRecord (j : Job) (rows : List Bits) (c : Nat) : TraceRec :=
  if j.instr.op.isVerify then lrcVerRecord rows c else lrcEncRecord rows c

/-- Start: the first block is the sum; no record (10_state.md R26). -/
def phaseStart (x : Progress) : Progress :=
  { x with work := { x.work with phase := .add, acc := val (x.work.blk.getD 0 []), bidx := 1 } }

/-- Add block: one addition and one T_ADD, or the next phase when no block is left; CSUM.VER has no
Complement (10_state.md R26). -/
def phaseAdd (j : Job) (x : Progress) : Progress :=
  match x.work.blk[x.work.bidx]? with
  | some b =>
    { work := { x.work with acc := addRes x.work.acc (val b) j.n, bidx := x.work.bidx + 1 }
      trace := x.trace ++ [addRecord j.n x.work.bidx x.work.acc b] }
  | none =>
    { x with work := { x.work with
        phase := if j.instr.op.isVerify then .assemble else .complement } }

/-- Complement: one T_CPL (10_state.md R26). -/
def phaseComplement (j : Job) (x : Progress) : Progress where
  work := { x.work with phase := .assemble }
  trace := x.trace ++ [.tCpl (bin x.work.acc j.n) (bin (onesComplement x.work.acc j.n) j.n)]

/-- One block of a parity operation, in block order (10_state.md R28). -/
def phaseBlocks (j : Job) (x : Progress) : Progress :=
  match x.work.blk[x.work.bidx]? with
  | some b =>
    { work := { x.work with bidx := x.work.bidx + 1 }
      trace := x.trace ++ [j.blockRecord x.work.bidx b] }
  | none => { x with work := { x.work with phase := .assemble } }

/-- One column of an LRC operation, in column order (10_state.md R28). -/
def phaseColumns (j : Job) (x : Progress) : Progress :=
  if x.work.col < j.n then
    { work := { x.work with col := x.work.col + 1,
                            colCount := columnCount x.work.blk x.work.col }
      trace := x.trace ++ [j.columnRecord x.work.blk x.work.col] }
  else { x with work := { x.work with phase := .assemble } }

/-- AppendZeros: SCR is the data and k - 1 zeros (10_state.md R27). -/
def phaseAppendZeros (j : Job) (x : Progress) : Progress :=
  { x with work := { x.work with
      phase := .xorDivide, scr := j.p ++ zeros (j.g.length - 1), pos := 0 } }

/-- XorDivide: one position, a T_XOR where the bit is '1' and nothing where it is '0' (10_state.md R27). -/
def phaseXorDivide (j : Job) (x : Progress) : Progress :=
  if x.work.pos + j.g.length ≤ x.work.scr.length then
    if x.work.scr.getD x.work.pos false then
      { work := { x.work with scr := xorAt j.g x.work.scr x.work.pos, pos := x.work.pos + 1 }
        trace := x.trace ++ [xorRecord j.g x.work.scr x.work.pos] }
    else { x with work := { x.work with pos := x.work.pos + 1 } }
  else { x with work := { x.work with phase := .remainder } }

/-- One unit of work (10_state.md R26 to R28). In Assemble there is nothing left to do. -/
def phaseStep (j : Job) (x : Progress) : Progress :=
  match x.work.phase with
  | .start => phaseStart x
  | .add => phaseAdd j x
  | .complement => phaseComplement j x
  | .blocks => phaseBlocks j x
  | .columns => phaseColumns j x
  | .appendZeros => phaseAppendZeros j x
  | .xorDivide => phaseXorDivide j x
  | .remainder => { x with work := { x.work with phase := .assemble } }
  | .assemble => x

/-- `k` units of work. -/
def phaseRun (j : Job) : Nat → Progress → Progress
  | 0, x => x
  | k + 1, x => phaseRun j k (phaseStep j x)

/-- Assemble: the result record, from the working registers (10_state.md R26, R27, 30_encoding.md R61). -/
def Job.assemble (j : Job) (w : Work) : Result :=
  match j.instr with
  | .parEnc pk _ => .parEnc w.blk (parityFrame pk w.blk)
  | .parVer pk _ => .parVer w.blk (parityValid w.blk pk)
  | .csumEnc _ _ =>
    .csumEnc w.blk (bin w.acc j.n) (bin (onesComplement w.acc j.n) j.n)
      (w.blk.flatten ++ bin (onesComplement w.acc j.n) j.n)
  | .csumVer _ _ => .csumVer w.blk (bin w.acc j.n) (checksumValid w.acc j.n)
  | .lrcEnc _ _ => .lrcEnc w.blk (lrcOf w.blk j.n) (w.blk.flatten ++ lrcOf w.blk j.n)
  | .lrcVer _ _ => .lrcVer w.blk (lrcValid w.blk j.n)
  | .crcEnc _ _ =>
    .crcEnc (j.p ++ zeros (j.g.length - 1)) (trailing w.scr j.g) (j.p ++ trailing w.scr j.g)
  | .crcVer _ _ => .crcVer (trailing w.scr j.g) (crcValid (trailing w.scr j.g) j.g)

end Sys2Proof.Machine
end

