-- ==== Sys2Proof/Machine/Views.lean ====
section
/-!
DEFINITION. What the HOST reads: BUSY, RESP.PRESENT and the fields of a response, with the status codes,
the record kinds, the generic result names and the rendering of counts.
-/

namespace Sys2Proof.Machine

/-- RESP.STATUS (10_state.md R23, 30_encoding.md R60). -/
inductive Status where
  | ok
  | invalidInput
  | invalidConfig
  | illegalCommand
  deriving DecidableEq, Repr

/-- The code of a status (30_encoding.md R60). -/
def Status.code : Status → BitVec 2
  | .ok => 0b00#2
  | .invalidInput => 0b01#2
  | .invalidConfig => 0b10#2
  | .illegalCommand => 0b11#2

/-- The status of an error (60_exceptions.md R148 to R150). -/
def ErrorKind.status : ErrorKind → Status
  | .invalidInput => .invalidInput
  | .invalidConfig => .invalidConfig
  | .illegalCommand => .illegalCommand

/-- RESP.STATUS of a response. -/
def Response.status : Response → Status
  | .ok _ _ => .ok
  | .error kind => kind.status

/-- RESP.RESULT: no value unless STATUS is OK (30_encoding.md R65). -/
def Response.result : Response → Option Result
  | .ok r _ => some r
  | .error _ => none

/-- RESP.TRACE: no value unless STATUS is OK (30_encoding.md R65). -/
def Response.trace : Response → Option (List TraceRec)
  | .ok _ t => some t
  | .error _ => none

/-- What the HOST may read (10_state.md R35): BUSY and RESP.PRESENT always, the response when PRESENT is 1
and BUSY is 0. The command registers are not readable back. -/
structure HostView where
  busy : Bool
  present : Bool
  response : Option Response
  deriving DecidableEq, Repr

/-- The HOST's view of a state (10_state.md R35). -/
def hostView (s : State) : HostView where
  busy := s.busy
  present := s.resp.isSome
  response := if s.busy then none else s.resp

/-- KIND of a record (30_encoding.md R63); 7 is never the kind of one. -/
def TraceRec.kind : TraceRec → BitVec 3
  | .tPar .. => 0#3
  | .tParv .. => 1#3
  | .tAdd .. => 2#3
  | .tCpl .. => 3#3
  | .tCol .. => 4#3
  | .tColv .. => 5#3
  | .tXor .. => 6#3

/-- `blocks` of a result that has it (30_encoding.md R61). -/
def Result.blocks : Result → Option (List Bits)
  | .parEnc b _ | .parVer b _ | .csumEnc b _ _ _ | .csumVer b _ _ | .lrcEnc b _ _ | .lrcVer b _ => some b
  | .crcEnc .. | .crcVer .. => none

/-- `frame`, of every encode result (30_encoding.md R61). -/
def Result.frame : Result → Option Bits
  | .parEnc _ f | .csumEnc _ _ _ f | .lrcEnc _ _ f | .crcEnc _ _ f => some f
  | .parVer .. | .csumVer .. | .lrcVer .. | .crcVer .. => none

/-- `isValid`, of every verify result (10_state.md R24, 30_encoding.md R61). -/
def Result.isValid : Result → Option Bool
  | .parVer _ v | .csumVer _ _ v | .lrcVer _ v | .crcVer _ v => some v
  | .parEnc .. | .csumEnc .. | .lrcEnc .. | .crcEnc .. => none

/-- `frame` of a response. -/
def Response.frame (r : Response) : Option Bits := r.result.bind Result.frame

/-- `isValid` of a response. -/
def Response.isValid (r : Response) : Option Bool := r.result.bind Result.isValid

/-- `perBlock` of the parity operations, which names the trace (30_encoding.md R61). -/
def Response.perBlock : Response → Option (List TraceRec)
  | .ok (.parEnc ..) t | .ok (.parVer ..) t => some t
  | .ok (.csumEnc ..) _ | .ok (.csumVer ..) _ | .ok (.lrcEnc ..) _ | .ok (.lrcVer ..) _
  | .ok (.crcEnc ..) _ | .ok (.crcVer ..) _ | .error _ => none

/-- `perColumn` of LRC.VER, which names the trace (30_encoding.md R61). -/
def Response.perColumn : Response → Option (List TraceRec)
  | .ok (.lrcVer ..) t => some t
  | .ok (.parEnc ..) _ | .ok (.parVer ..) _ | .ok (.csumEnc ..) _ | .ok (.csumVer ..) _
  | .ok (.lrcEnc ..) _ | .ok (.crcEnc ..) _ | .ok (.crcVer ..) _ | .error _ => none

/-- The flag of one record, where it has one (10_state.md R24): pbit, ok per chunk, carry, ok per column;
the LRC bit for T_COL. -/
def TraceRec.flag : TraceRec → Option Bool
  | .tPar _ _ _ pbit => some pbit
  | .tParv _ _ _ _ _ ok => some ok
  | .tAdd _ _ _ _ carry _ => some carry
  | .tCol _ _ bit => some bit
  | .tColv _ _ ok => some ok
  | .tCpl .. | .tXor .. => none

/-- A generic check value (30_encoding.md R62): bits, or the column counts of LRC.VER. -/
inductive CheckValue where
  | bits (b : Bits)
  | counts (c : List Nat)
  deriving DecidableEq, Repr

/-- The `count` of a column record. -/
def TraceRec.count : TraceRec → Option Nat
  | .tCol _ count _ | .tColv _ count _ => some count
  | .tPar .. | .tParv .. | .tAdd .. | .tCpl .. | .tXor .. => none

/-- The `expected` bit of a T_PARV record. -/
def TraceRec.expected : TraceRec → Option Bool
  | .tParv _ _ _ expected _ _ => some expected
  | .tPar .. | .tAdd .. | .tCpl .. | .tCol .. | .tColv .. | .tXor .. => none

/-- `checkValue` of an encode response (30_encoding.md R62). -/
def Response.checkValue : Response → Option CheckValue
  | .ok (.parEnc ..) t => some (.bits (t.filterMap TraceRec.flag))
  | .ok (.csumEnc _ _ c _) _ => some (.bits c)
  | .ok (.lrcEnc _ l _) _ => some (.bits l)
  | .ok (.crcEnc _ r _) _ => some (.bits r)
  | .ok (.parVer ..) _ | .ok (.csumVer ..) _ | .ok (.lrcVer ..) _ | .ok (.crcVer ..) _
  | .error _ => none

/-- `recomputedCheck` of a verify response (30_encoding.md R62). -/
def Response.recomputedCheck : Response → Option CheckValue
  | .ok (.parVer ..) t => some (.bits (t.filterMap TraceRec.expected))
  | .ok (.csumVer _ s _) _ => some (.bits s)
  | .ok (.lrcVer ..) t => some (.counts (t.filterMap TraceRec.count))
  | .ok (.crcVer r _) _ => some (.bits r)
  | .ok (.parEnc ..) _ | .ok (.csumEnc ..) _ | .ok (.lrcEnc ..) _ | .ok (.crcEnc ..) _
  | .error _ => none

/-- A count or index rendered in a 32-bit register field (00_scope.md R7 CNTW, 30_encoding.md R64); none
where it does not fit, which R64's bounds exclude. -/
def renderCount (v : Nat) : Option Word := if v < 2 ^ 32 then some (BitVec.ofNat 32 v) else none

/-- The counts and indices a record holds (30_encoding.md R63, R64). -/
def TraceRec.numbers : TraceRec → List Nat
  | .tPar idx _ ones _ => [idx, ones]
  | .tParv idx _ ones _ _ _ => [idx, ones]
  | .tAdd idx _ _ _ _ _ => [idx]
  | .tCpl .. => []
  | .tCol col count _ => [col, count]
  | .tColv col count _ => [col, count]
  | .tXor pos _ _ => [pos]

end Sys2Proof.Machine
end

