-- ==== Sys2Proof/Safety.lean ====
section
/-!
DEFINITION. What a safe state is, and the terms claims about runs and errors in frames are stated in.
-/

namespace Sys2Proof.Machine

/-- The invariant of the machine. The buffers have exactly PLEN and GLEN cells (10_state.md R20); no
response is present while BUSY = 1 (R21, R22); a response that is present is the one the command still held
in the registers has (20_memory.md R49 item 1, 10_state.md R32). -/
structure Inv (s : State) : Prop where
  buffers : Memory.wf s = true
  busy_absent : s.busy = true → s.resp = none
  present_answers : ∀ r, s.resp = some r → respond s.command = some r

/-- The end of a run (70_reset_and_hazards.md R174): the last command has completed, so that BUSY = 0, a
response is present and no command is left to issue. What the HOST does then, a read or a reset, is no part
of the run. -/
def Final (s : State) : Prop := s.busy = false ∧ s.resp.isSome = true ∧ noIssueLeft s.host.moves = true

/-- Two states the HOST and the coming steps cannot tell apart (10_state.md R25, R36): they agree on BUSY,
the response, the HOST and Cap, and, while BUSY = 1, on the command. The working registers, and the command
registers of an idle block, may differ. -/
structure Indistinguishable (s s' : State) : Prop where
  busy : s.busy = s'.busy
  resp : s.resp = s'.resp
  capacity : s.capacity = s'.capacity
  host : s.host = s'.host
  command : s.busy = true → s.command = s'.command

/-- The response an instruction leaves in a state, if it completes. -/
def responseOf (i : Instr) (s : State) : Option Response :=
  match exec i s with
  | .next t => t.resp
  | .fault _ => none
  | .refused _ => none

/-- The frame an encode instruction returns, if it completes with STATUS OK. -/
def frameOf (i : Instr) (s : State) : Option Bits := (responseOf i s).bind Response.frame

/-- The isValid a verify instruction returns, if it completes with STATUS OK. -/
def verdictOf (i : Instr) (s : State) : Option Bool := (responseOf i s).bind Response.isValid

/-- The bits an encode instruction is given or a verify instruction receives: the symbols that count, which
for the LRC operations are those left after stripping SW (30_encoding.md R57). -/
def payloadOf (op : Op) (s : State) : List Symbol := if op.isLrc then strip s.raw else s.raw

/-- A bit string as the symbols S0 and S1 that present it (30_encoding.md R56). -/
def binary (p : Bits) : List Symbol := p.map symbolOf

/-- The frame with the bit at place i flipped (46_properties.md R133). -/
def flipBit (f : Bits) (i : Nat) : Bits := f.set i (! f.getD i false)

/-- How many places of a set two strings differ at (46_properties.md R135). -/
def flipsAt (f f' : Bits) (place : Nat → Bool) : Nat :=
  (List.range f.length).countP fun i => place i && (f.getD i false != f'.getD i false)

/-- The polynomial a bit string spells over GF(2): `g[j]` is the coefficient of `x^(k-1-j)`
(44_crc_divider.md R108). -/
noncomputable def polyOf (s : Bits) : Polynomial (ZMod 2) :=
  s.foldl (fun q b => q * Polynomial.X + Polynomial.C (if b then 1 else 0)) 0

/-- A trace of the moves of a HOST that issues each command and reads its response (70_reset_and_hazards.md
R174). -/
def session (cs : List Command) : List HostMove := cs.flatMap fun c => [.issue c, .read]

end Sys2Proof.Machine
end

