-- ==== Sys2Proof/Certificates/Slice0/Obligations.lean ====
section
/-!
DEFINITION. The statements for the provers, from the numbered rules of spec/.
-/

open Sys2Proof Sys2Proof.Machine

/-! ### Encoding -/

/-- A few words written out from the table of 30_encoding.md R58 and the fields of R54 decode to what they
stand for: every operation once, PK set, N negative, N largest. -/
def Obligations.SampleWordsDecode : Prop :=
  decode 0x00080000#32 = .ok (.parEnc .even 8) ∧
  decode 0x00040009#32 = .ok (.parVer .odd 4) ∧
  decode 0x7FFF0002#32 = .ok (.csumEnc .even 32767) ∧
  decode 0xFFFB0003#32 = .ok (.csumVer .even (-5)) ∧
  decode 0x0004000C#32 = .ok (.lrcEnc .odd 4) ∧
  decode 0x80000005#32 = .ok (.lrcVer .even (-32768)) ∧
  decode 0x04D2000E#32 = .ok (.crcEnc .odd 1234) ∧
  decode 0x00000007#32 = .ok (.crcVer .even 0) ∧
  decode 0x00080010#32 = .error (.reservedBits 1#12)

/-- Decoding the word of a well-formed instruction gives it back, with PK and N at every value the encoding
admits, used or ignored (30_encoding.md R54, R58, R59). -/
def Obligations.DecodeOfEncodeIsInstruction : Prop :=
  ∀ i : Instr, i.WellFormed → decode (encode i) = .ok i

/-- Every word that decodes is the word of the instruction it decodes to, which is well formed: no bit of a
legal word is dropped (30_encoding.md R54, R58). -/
def Obligations.EncodeOfDecodeIsWord : Prop :=
  ∀ (w : Word) (i : Instr), decode w = .ok i → encode i = w ∧ i.WellFormed

/-- The general form of an assembled word, the lengths, and that a line assembles to a command that decodes
to its instruction (30_encoding.md R67). -/
def Obligations.AssembledCommandHasGeneralForm : Prop :=
  ∀ a : Line, a.instr.WellFormed → a.payload.length < 2 ^ 32 → a.polynomial.length < 2 ^ 32 →
    a.assemble.w0.toNat =
      (a.instr.blockSize % 2 ^ 16).toNat * 2 ^ 16 + a.instr.kind.bit.toNat * 8 + a.instr.op.code.toNat ∧
    a.assemble.plen.toNat = a.payload.length ∧ a.assemble.glen.toNat = a.polynomial.length ∧
    a.assemble.WellFormed ∧ decode a.assemble.w0 = .ok a.instr

/-! ### Steps of the machine -/

/-- When the command word held decodes and no reset comes first, the step of a busy block is the meaning of
the instruction (10_state.md R30, 30_encoding.md R69). -/
def Obligations.StepRunsDecodedInstruction : Prop :=
  ∀ (s : State) (i : Instr), s.busy = true → resetPending s = false → decode s.w0 = .ok i →
    step s = exec i s

/-- A word placed for fetching is run by the very next step. -/
def Obligations.PlacedWordRunsNext : Prop :=
  ∀ (s : State) (nbits w : Nat) (i : Instr), decodeTableWord nbits w = some i →
    step (s.withFetchWord nbits w) = exec i (s.withFetchWord nbits w) ∧
    (s.withFetchWord nbits w).busy = true ∧ (s.withFetchWord nbits w).resp = none

/-- A word with a reserved bit set ends with IllegalCommand, whatever PLEN, GLEN, IN and GEN hold, and with
nothing but that status; no instruction ever ends so (60_exceptions.md R150). -/
def Obligations.ReservedBitsGiveIllegalCommandOnly : Prop :=
  (∀ s : State, s.busy = true → resetPending s = false → s.w0.toNat / 16 % 4096 ≠ 0 →
    step s = .next { s with busy := false, resp := some (.error .illegalCommand) }) ∧
  ∀ (i : Instr) (s t : State), exec i s = .next t → t.resp ≠ some (.error .illegalCommand)

/-- The step `issue` (10_state.md R29): all five parts at once, BUSY set, the response gone; nothing else
changes. Outside Cap it is not enabled; while BUSY = 1 the command held is not touched and the HOST's move
waits. -/
def Obligations.IssueTakesCommandAtOnce : Prop :=
  ∀ (s : State) (c : Command) (rest : List HostMove), s.host.moves = .issue c :: rest → c.WellFormed →
    (s.busy = false →
      step s =
        if admits s.capacity c then
          .next { s with
            w0 := c.w0, plen := c.plen, glen := c.glen, inBuf := c.inBuf, genBuf := c.genBuf,
            busy := true, resp := none, host := { moves := rest, received := s.host.received } }
        else .refused .outsideCapacity) ∧
    (s.busy = true → ∀ t, step s = .next t →
      t.command = s.command ∧ t.busy = false ∧ t.host = s.host)

/-- The step `read` (10_state.md R31): with a response present the HOST gets it, and nothing of the block
changes; with none it is not a step (70_reset_and_hazards.md R168). -/
def Obligations.ReadReturnsResponseAndChangesNothing : Prop :=
  ∀ (s : State) (rest : List HostMove), s.busy = false → s.host.moves = .read :: rest →
    (∀ r, s.resp = some r →
      step s = .next { s with host := { moves := rest, received := s.host.received ++ [r] } }) ∧
    (s.resp = none → step s = .refused .readAbsent)

/-- A response, once present, stays until the next `issue` or a reset (10_state.md R31, 20_memory.md
R49). -/
def Obligations.ResponseStaysUntilIssueOrReset : Prop :=
  ∀ (s t : State) (r : Response), s.busy = false → s.resp = some r → step s = .next t →
    t.resp = some r ∨
    (∃ c rest, s.host.moves = .issue c :: rest ∧ t.resp = none ∧ t.busy = true) ∨
    (∃ rest, s.host.moves = .reset :: rest ∧ t.resp = none ∧ t.busy = false)

/-- State.reset is idle with no response (70_reset_and_hazards.md R161), and a reset event leaves the block
so, whatever it was doing; a command in flight gives no response, and the HOST's coming moves and what it has
received stay (R162). -/
def Obligations.ResetLeavesIdleWithNoResponse : Prop :=
  (State.reset.busy = false ∧ State.reset.resp = none) ∧
  ∀ (s : State) (rest : List HostMove), s.host.moves = .reset :: rest →
    ∃ t, step s = .next t ∧ t.busy = false ∧ t.resp = none ∧
      t.host = { moves := rest, received := s.host.received }

/-- BUSY is 1 only from an `issue` to the next step: a step leaves BUSY = 1 only if it was an `issue` into an
idle block (10_state.md R21), so a busy block that steps is idle (R30). -/
def Obligations.BusyOnlyAfterIssue : Prop :=
  ∀ s t : State, step s = .next t → t.busy = true →
    s.busy = false ∧ t.resp = none ∧ ∃ c rest, s.host.moves = .issue c :: rest ∧ t.command = c

/-- Every step that is refused, and why: a CRC.VER frame shorter than k - 1 bits, a read with no response, an
issue outside Cap or of no command. No instruction is refused for want of a meaning. -/
def Obligations.StepRefusesOnlyForNamedReasons : Prop :=
  ∀ (s : State) (r : Refusal), step s = .refused r →
    (r = .crcShortFrame ∧ s.busy = true ∧ respond s.command = none) ∨
    (r = .readAbsent ∧ s.busy = false ∧ s.resp = none ∧ ∃ rest, s.host.moves = .read :: rest) ∨
    (s.busy = false ∧ ∃ c rest, s.host.moves = .issue c :: rest ∧
      ((r = .outsideCapacity ∧ admits s.capacity c = false) ∨ (r = .notACommand ∧ ¬ c.WellFormed)))

/-- `complete` writes the response the command has and clears BUSY, and touches no other register but the
working ones (10_state.md R30, R32): the response depends on the command and on nothing else. A command with no
specified response is refused (60_exceptions.md R151, log 6). -/
def Obligations.CompleteGivesTheCommandsResponse : Prop :=
  ∀ s : State, s.busy = true → resetPending s = false →
    (∀ r, respond s.command = some r →
      ∃ w, step s = .next { s with busy := false, resp := some r, work := w }) ∧
    (respond s.command = none → step s = .refused .crcShortFrame)

/-- The invariant holds at reset. -/
def Obligations.ResetSatisfiesInvariant : Prop := Inv State.reset

/-- Every step keeps the invariant: buffers of PLEN and GLEN cells, no response while BUSY = 1, and a
response that is present is the one of the command held (20_memory.md R49, 10_state.md R20, R22, R32). -/
def Obligations.StepKeepsInvariant : Prop :=
  ∀ s t : State, Inv s → step s = .next t → Inv t

/-- States that differ only in what no rule lets anyone see (the working registers, and the command registers
of an idle block) step alike (10_state.md R25, R34, R36): nothing unspecified after reset is read before it is
written. -/
def Obligations.UnspecifiedStateIsNeverRead : Prop :=
  ∀ s s' : State, Indistinguishable s s' →
    match step s, step s' with
    | .next t, .next t' => Indistinguishable t t' ∧ hostView t = hostView t'
    | .refused r, .refused r' => r = r'
    | _, _ => False

/-- A HOST that issues commands and reads each response gets, from any idle state, exactly the response each
command has on its own, in order, and the run ends (70_reset_and_hazards.md R163, R174; 10_state.md R32;
20_memory.md R49). The HOST's lists of moves and of responses received are the model's (log 3, log 16). -/
def Obligations.SessionDeliversEachResponse : Prop :=
  ∀ (s : State) (cs : List Command), s.busy = false → s.host.moves = session cs →
    (∀ c ∈ cs, c.WellFormed ∧ admits s.capacity c = true ∧ respond c ≠ none) →
    ∃ t, Host.Core.run Sys2Proof.core (3 * cs.length) s = .next t ∧
      t.busy = false ∧ t.host.moves = [] ∧
      t.host.received = s.host.received ++ cs.filterMap respond ∧ (cs ≠ [] → Final t)

/-- Instances share nothing: a step of one leaves every other as it is, and steps of two instances give the
same system in either order (20_memory.md R51, 60_exceptions.md R159). -/
def Obligations.InstancesDoNotAffectEachOther : Prop :=
  ∀ (sys sysK : System) (k j : Nat), sys.stepAt k = .next sysK → j ≠ k →
    sysK.instances[j]? = sys.instances[j]? ∧
    ∀ sysJ, sys.stepAt j = .next sysJ →
      ∃ sysKJ, sysK.stepAt j = .next sysKJ ∧ sysJ.stepAt k = .next sysKJ

/-- Splitting an operation into one step per unit of work, over the working registers, ends in Assemble with
the same response and the same working registers as the one-step meaning (10_state.md R25 to R28, R30). -/
def Obligations.PhasesAgreeWithOneStepMeaning : Prop :=
  ∀ (i : Instr) (s t : State) (r : Result) (tr : List TraceRec),
    exec i s = .next t → t.resp = some (.ok r tr) →
    ∃ p g k, check i.op i.blockSize s.raw s.g0 = .ok p g ∧
      phaseRun ⟨i, p, g⟩ k (Job.begin ⟨i, p, g⟩ s.work) = ⟨t.work, tr⟩ ∧
      t.work.phase = .assemble ∧ Job.assemble ⟨i, p, g⟩ t.work = r

/-! ### Frames -/

/-- What no instruction changes when it completes: W0, PLEN, GLEN, every cell of IN and of GEN, Cap and the
HOST (20_memory.md R44); BUSY is cleared and a response is present (10_state.md R30); an error leaves the
working registers too (60_exceptions.md R152). -/
def Obligations.InstructionsWriteOnlyResponseAndWork : Prop :=
  ∀ (i : Instr) (s t : State), exec i s = .next t →
    t.w0 = s.w0 ∧ t.plen = s.plen ∧ t.glen = s.glen ∧
    (∀ k, readCell t.inBuf k = readCell s.inBuf k) ∧ (∀ k, readCell t.genBuf k = readCell s.genBuf k) ∧
    t.capacity = s.capacity ∧ t.host = s.host ∧ t.busy = false ∧
    ((∃ r tr, t.resp = some (.ok r tr)) ∨ ∃ kind, t.resp = some (.error kind) ∧ t.work = s.work)

/-- A field an operation does not use does not change what it does (30_encoding.md R59): PK outside parity,
N for CRC, GLEN and GEN outside CRC. -/
def Obligations.UnusedFieldsAreIgnored : Prop :=
  (∀ (pk pk' : ParityKind) (n : Int) (s : State),
    exec (.csumEnc pk n) s = exec (.csumEnc pk' n) s ∧ exec (.csumVer pk n) s = exec (.csumVer pk' n) s ∧
    exec (.lrcEnc pk n) s = exec (.lrcEnc pk' n) s ∧ exec (.lrcVer pk n) s = exec (.lrcVer pk' n) s) ∧
  (∀ (pk pk' : ParityKind) (n n' : Int) (s : State),
    exec (.crcEnc pk n) s = exec (.crcEnc pk' n') s ∧ exec (.crcVer pk n) s = exec (.crcVer pk' n') s) ∧
  ∀ (i : Instr) (s : State) (glen : Word) (genBuf : List Symbol), i.op.isCrc = false →
    responseOf i { s with glen := glen, genBuf := genBuf } = responseOf i s

/-! ### The check and the statuses -/

/-- An instruction ends with InvalidInput exactly for the causes (a) to (d) of 60_exceptions.md R143, before
any InvalidConfig cause is looked at (R146, R147; log 8), and then writes nothing but that status (R148,
R152). -/
def Obligations.InvalidInputExactlyForItsCauses : Prop :=
  ∀ (i : Instr) (s : State),
    exec i s = .next { s with busy := false, resp := some (.error .invalidInput) } ↔
      payloadOf i.op s = [] ∨ .sx ∈ s.raw ∨ (i.op.isLrc = false ∧ .sw ∈ s.raw) ∨
      (i.op.isCrc = true ∧ (.sw ∈ s.g0 ∨ .sx ∈ s.g0))

/-- With no InvalidInput cause, an instruction ends with InvalidConfig exactly for the causes (e) to (g) of
60_exceptions.md R143, and then writes nothing but that status (R149, R152). -/
def Obligations.InvalidConfigExactlyForItsCauses : Prop :=
  ∀ (i : Instr) (s : State),
    payloadOf i.op s ≠ [] → .sx ∉ s.raw → (i.op.isLrc = false → .sw ∉ s.raw) →
    (i.op.isCrc = true → .sw ∉ s.g0 ∧ .sx ∉ s.g0) →
    (exec i s = .next { s with busy := false, resp := some (.error .invalidConfig) } ↔
      (i.op.isCrc = false ∧ i.blockSize ≤ 0) ∨
      (i.op.isCrc = true ∧ (s.g0.length < 2 ∨ s.g0.head? ≠ some .s1)))

/-- The one command with no specified response is refused: CRC.VER with a frame shorter than k - 1 bits; no
other is (60_exceptions.md R151). -/
def Obligations.ShortCrcFrameIsTheOnlyRefusal : Prop :=
  (∀ (pk : ParityKind) (n : Int) (s : State) (p g : Bits), s.raw = binary p → s.g0 = binary g → p ≠ [] →
    2 ≤ g.length → g.head? = some true → p.length < g.length - 1 →
    exec (.crcVer pk n) s = .refused .crcShortFrame) ∧
  ∀ (i : Instr) (s : State) (r : Refusal), exec i s = .refused r →
    r = .crcShortFrame ∧ i.op = .crcVer ∧ s.raw.length < s.g0.length - 1

/-! ### Results of the eight operations -/

/-- PAR.ENC completes, with the unpadded blocks, each followed by its parity bit in the frame, and one T_PAR
per block (41_parity_encoder.md R86). -/
def Obligations.ParEncResult : Prop :=
  ∀ (pk : ParityKind) (n : Int) (s : State) (p : Bits), s.raw = binary p → p ≠ [] → 1 ≤ n →
    exec (.parEnc pk n) s = .next { s with
      busy := false
      resp := some (.ok
        (.parEnc (slice p n.toNat) ((slice p n.toNat).flatMap fun b => b ++ [parityBit b pk]))
        ((slice p n.toNat).zipIdx.map fun x => .tPar x.2 x.1 (countOnes x.1) (parityBit x.1 pk)))
      work := { s.work with
        phase := .assemble, blk := slice p n.toNat, bidx := (slice p n.toNat).length } }

/-- PAR.VER completes, with chunks of width n + 1, each compared with the parity of all its bits but the last,
and valid iff all agree (45_verify_reduce_and_predicate.md R121). -/
def Obligations.ParVerResult : Prop :=
  ∀ (pk : ParityKind) (n : Int) (s : State) (f : Bits), s.raw = binary f → f ≠ [] → 1 ≤ n →
    let chunks := slice f (n.toNat + 1)
    let expected : Bits → Bool := fun c => parityBit c.dropLast pk
    let received : Bits → Bool := fun c => c.getLast?.getD false
    exec (.parVer pk n) s = .next { s with
      busy := false
      resp := some (.ok
        (.parVer chunks (chunks.all fun c => expected c == received c))
        (chunks.zipIdx.map fun x => .tParv x.2 x.1.dropLast (countOnes x.1.dropLast) (expected x.1)
          (received x.1) (expected x.1 == received x.1)))
      work := { s.work with phase := .assemble, blk := chunks, bidx := chunks.length } }

/-- CSUM.ENC completes, with the padded blocks, their folded sum, its complement, and the complement appended;
the trace is the fold's additions and one T_CPL (42_checksum_encoder.md R96). PK does not matter. -/
def Obligations.CsumEncResult : Prop :=
  ∀ (pk : ParityKind) (n : Int) (s : State) (p : Bits), s.raw = binary p → p ≠ [] → 1 ≤ n →
    let blocks := splitBlocks p n.toNat
    let sum := (fold blocks n.toNat).1
    let checksum := notBits (bin sum n.toNat)
    exec (.csumEnc pk n) s = .next { s with
      busy := false
      resp := some (.ok
        (.csumEnc blocks (bin sum n.toNat) checksum (blocks.flatten ++ checksum))
        ((fold blocks n.toNat).2 ++ [.tCpl (bin sum n.toNat) checksum]))
      work := { s.work with phase := .assemble, blk := blocks, bidx := blocks.length, acc := sum } }

/-- CSUM.VER completes, with all blocks folded, the checksum block among them, and valid iff the sum is all
ones (45_verify_reduce_and_predicate.md R123). PK does not matter. -/
def Obligations.CsumVerResult : Prop :=
  ∀ (pk : ParityKind) (n : Int) (s : State) (f : Bits), s.raw = binary f → f ≠ [] → 1 ≤ n →
    let blocks := splitBlocks f n.toNat
    let sum := (fold blocks n.toNat).1
    exec (.csumVer pk n) s = .next { s with
      busy := false
      resp := some (.ok
        (.csumVer blocks (bin sum n.toNat) (bin sum n.toNat == ones n.toNat))
        (fold blocks n.toNat).2)
      work := { s.work with phase := .assemble, blk := blocks, bidx := blocks.length, acc := sum } }

/-- LRC.ENC completes, with whitespace stripped, padded rows, one parity bit a column appended as a row, and one
T_COL a column (43_lrc_encoder.md R104). PK does not matter. -/
def Obligations.LrcEncResult : Prop :=
  ∀ (pk : ParityKind) (n : Int) (s : State) (p : Bits), strip s.raw = binary p → p ≠ [] → 1 ≤ n →
    let rows := splitBlocks p n.toNat
    let count : Nat → Nat := fun c => rows.countP fun r => r[c]? == some true
    let lrc := (List.range n.toNat).map fun c => count c % 2 == 1
    exec (.lrcEnc pk n) s = .next { s with
      busy := false
      resp := some (.ok
        (.lrcEnc rows lrc (rows.flatten ++ lrc))
        ((List.range n.toNat).map fun c => .tCol c (count c) (count c % 2 == 1)))
      work := { s.work with
        phase := .assemble, blk := rows, col := n.toNat, colCount := count (n.toNat - 1) } }

/-- LRC.VER completes, with whitespace stripped, every column counted over all rows, the LRC row among them, and
valid iff every count is even (45_verify_reduce_and_predicate.md R125). PK does not matter. -/
def Obligations.LrcVerResult : Prop :=
  ∀ (pk : ParityKind) (n : Int) (s : State) (f : Bits), strip s.raw = binary f → f ≠ [] → 1 ≤ n →
    let rows := splitBlocks f n.toNat
    let count : Nat → Nat := fun c => rows.countP fun r => r[c]? == some true
    exec (.lrcVer pk n) s = .next { s with
      busy := false
      resp := some (.ok
        (.lrcVer rows ((List.range n.toNat).all fun c => count c % 2 == 0))
        ((List.range n.toNat).map fun c => .tColv c (count c) (count c % 2 == 0)))
      work := { s.work with
        phase := .assemble, blk := rows, col := n.toNat, colCount := count (n.toNat - 1) } }

/-- CRC.ENC completes, with k - 1 zeros appended, the remainder of the division, and data ++ remainder as the
frame; the trace is the division's (44_crc_divider.md R112). PK and N do not matter. -/
def Obligations.CrcEncResult : Prop :=
  ∀ (pk : ParityKind) (n : Int) (s : State) (p g : Bits), s.raw = binary p → s.g0 = binary g → p ≠ [] →
    2 ≤ g.length → g.head? = some true →
    let a := p ++ List.replicate (g.length - 1) false
    let r := (xorDivide a g).1
    ∃ scr, exec (.crcEnc pk n) s = .next { s with
        busy := false
        resp := some (.ok (.crcEnc a r (p ++ r)) (xorDivide a g).2)
        work := { s.work with phase := .assemble, scr := scr, pos := p.length } } ∧
      scr = List.replicate p.length false ++ r

/-- CRC.VER completes on a frame of at least k - 1 bits, with the remainder of the frame itself, and valid iff
it is all zeros (45_verify_reduce_and_predicate.md R127). PK and N do not matter. -/
def Obligations.CrcVerResult : Prop :=
  ∀ (pk : ParityKind) (n : Int) (s : State) (f g : Bits), s.raw = binary f → s.g0 = binary g → f ≠ [] →
    2 ≤ g.length → g.head? = some true → g.length - 1 ≤ f.length →
    let r := (xorDivide f g).1
    ∃ scr, exec (.crcVer pk n) s = .next { s with
        busy := false
        resp := some (.ok (.crcVer r (decide (∀ b ∈ r, b = false))) (xorDivide f g).2)
        work := { s.work with phase := .assemble, scr := scr, pos := f.length + 1 - g.length } } ∧
      scr = List.replicate (f.length + 1 - g.length) false ++ r

/-- The sizes of 46_properties.md R139, for every response with STATUS OK: the frame's length and the number of
trace records. -/
def Obligations.ResponseSizes : Prop :=
  ∀ (i : Instr) (s : State) (r : Result) (tr : List TraceRec), responseOf i s = some (.ok r tr) →
    let len := (payloadOf i.op s).length
    let n := i.blockSize.toNat
    let k := s.g0.length
    match i.op with
    | .parEnc => r.frame.map List.length = some (len + ceilDiv len n) ∧ tr.length = ceilDiv len n
    | .parVer => r.frame = none ∧ tr.length = ceilDiv len (n + 1)
    | .csumEnc => r.frame.map List.length = some ((ceilDiv len n + 1) * n) ∧ tr.length = ceilDiv len n
    | .csumVer => r.frame = none ∧ tr.length = ceilDiv len n - 1
    | .lrcEnc => r.frame.map List.length = some ((ceilDiv len n + 1) * n) ∧ tr.length = n
    | .lrcVer => r.frame = none ∧ tr.length = n
    | .crcEnc => r.frame.map List.length = some (len + k - 1) ∧ tr.length ≤ len
    | .crcVer => r.frame = none ∧ tr.length ≤ len + 1 - k

/-- The bounds of 30_encoding.md R64 on the counts and indices of every record of a response, with m blocks,
and that each fits a 32-bit field. -/
def Obligations.RecordCountsAreBounded : Prop :=
  ∀ (i : Instr) (s : State) (r : Result) (tr : List TraceRec), i.WellFormed →
    responseOf i s = some (.ok r tr) →
    ∀ x ∈ tr,
      (match x with
        | .tPar idx _ ones _ => idx < (r.blocks.getD []).length ∧ (ones : Int) ≤ i.blockSize
        | .tParv idx _ ones _ _ _ => idx < (r.blocks.getD []).length ∧ (ones : Int) ≤ i.blockSize
        | .tAdd idx _ _ _ _ _ => idx < (r.blocks.getD []).length
        | .tCpl _ _ => True
        | .tCol col count _ =>
          (col : Int) < i.blockSize ∧ i.blockSize ≤ 32767 ∧ count ≤ (r.blocks.getD []).length
        | .tColv col count _ =>
          (col : Int) < i.blockSize ∧ i.blockSize ≤ 32767 ∧ count ≤ (r.blocks.getD []).length
        | .tXor pos _ _ =>
          pos + s.g0.length ≤
            s.raw.length + (if i.op = .crcEnc then s.g0.length - 1 else 0)) ∧
      ∀ v ∈ x.numbers, renderCount v = some (BitVec.ofNat 32 v) ∧ (BitVec.ofNat 32 v).toNat = v

/-! ### The shared functions -/

/-- `val` and `bin` are inverse (00_scope.md R9), and `fmtBin` renders in exactly `width` characters what fits
and in as few as it needs what does not, never truncating (40_shared_primitives.md R81, 90_conflicts.md
C10). -/
def Obligations.NumbersAreRenderedWithoutLoss : Prop :=
  (∀ v w : Nat, v < 2 ^ w → (bin v w).length = w ∧ val (bin v w) = v) ∧
  (∀ s : Bits, val s < 2 ^ s.length ∧ bin (val s) s.length = s) ∧
  ∀ v width : Nat, 1 ≤ width →
    val (fmtBin v width) = v ∧
    (v < 2 ^ width → (fmtBin v width).length = width) ∧
    (2 ^ width ≤ v → width < (fmtBin v width).length ∧
      v < 2 ^ (fmtBin v width).length ∧ ∀ j, v < 2 ^ j → (fmtBin v width).length ≤ j)

/-- `slice` (40_shared_primitives.md R79, 20_memory.md R40): ceil(L / w) pieces that put together are p, all of
length w but the last, which has 1 to w. -/
def Obligations.SliceCutsWithoutPadding : Prop :=
  ∀ (p : Bits) (w : Nat), p ≠ [] → 1 ≤ w →
    (slice p w).length = ceilDiv p.length w ∧
    (slice p w).flatten = p ∧
    (∀ b, b + 1 < ceilDiv p.length w → ((slice p w).getD b []).length = w) ∧
    ((slice p w).getD (ceilDiv p.length w - 1) []).length = p.length - (ceilDiv p.length w - 1) * w ∧
    1 ≤ p.length - (ceilDiv p.length w - 1) * w ∧ p.length - (ceilDiv p.length w - 1) * w ≤ w

/-- `splitBlocks` (40_shared_primitives.md R77): ceil(L / size) blocks, each of length exactly size, that put
together are p and then zeros. -/
def Obligations.SplitBlocksPadsOnTheRight : Prop :=
  ∀ (p : Bits) (size : Nat), p ≠ [] → 1 ≤ size →
    (splitBlocks p size).length = ceilDiv p.length size ∧ 1 ≤ ceilDiv p.length size ∧
    (∀ b ∈ splitBlocks p size, b.length = size) ∧
    (splitBlocks p size).flatten =
      p ++ List.replicate (ceilDiv p.length size * size - p.length) false ∧
    (size ∣ p.length → (splitBlocks p size).flatten = p)

/-- The parity bit makes the 1-count of block and bit even under even parity and odd under odd parity, by the
four cases of 41_parity_encoder.md R85. -/
def Obligations.ParityBitMakesCountMatchKind : Prop :=
  ∀ b : Bits,
    (countOnes b % 2 = 0 → parityBit b .even = false ∧ parityBit b .odd = true) ∧
    (countOnes b % 2 = 1 → parityBit b .even = true ∧ parityBit b .odd = false) ∧
    countOnes (b ++ [parityBit b .even]) % 2 = 0 ∧ countOnes (b ++ [parityBit b .odd]) % 2 = 1

/-- `addWrap` (42_checksum_encoder.md R92): the raw sum, its carry, and the carry added back once; with the
corner cases of the rule, and that it is commutative and associative. -/
def Obligations.AddWrapIsEndAroundCarry : Prop :=
  ∀ (a b c n : Nat), 1 ≤ n → a < 2 ^ n → b < 2 ^ n → c < 2 ^ n →
    addWrap a b n = (a + b, (a + b) / 2 ^ n, (a + b) % 2 ^ n + (a + b) / 2 ^ n) ∧
    a + b ≤ 2 ^ (n + 1) - 2 ∧
    (addCarry a b n = 0 ∨ addCarry a b n = 1) ∧
    (addCarry a b n = 0 → addRes a b n = a + b) ∧
    (a + b = 2 ^ n - 1 → addCarry a b n = 0 ∧ addRes a b n = 2 ^ n - 1) ∧
    (a + b = 2 ^ n → addCarry a b n = 1 ∧ addRes a b n = 1) ∧
    (a = 2 ^ n - 1 → b = 2 ^ n - 1 → addRaw a b = 2 ^ (n + 1) - 2 ∧ addCarry a b n = 1 ∧
      addRes a b n = 2 ^ n - 1) ∧
    addRes 0 b n = b ∧
    addRes a b n = addRes b a n ∧
    addRes (addRes a b n) c n = addRes a (addRes b c n) n

/-- No second overflow (42_checksum_encoder.md R93): the result always fits n bits, so adding the carry back
once is the loop to fixpoint; and the premise holds in every use, since the sum so far of a fold is such a
number and so is a block. -/
def Obligations.AddWrapNeverOverflowsTwice : Prop :=
  (∀ (a b n : Nat), 1 ≤ n → a ≤ 2 ^ n - 1 → b ≤ 2 ^ n - 1 →
    a + b ≤ 2 ^ (n + 1) - 2 ∧ addCarry a b n ≤ 1 ∧
    (addCarry a b n = 1 → (a + b) % 2 ^ n = a + b - 2 ^ n ∧ (a + b) % 2 ^ n ≤ 2 ^ n - 2) ∧
    addRes a b n < 2 ^ n ∧ addRes a b n / 2 ^ n = 0 ∧
    val (bin (addRes a b n) n) = addRes a b n) ∧
  ∀ (blocks : List Bits) (n j : Nat), 1 ≤ n → (∀ b ∈ blocks, b.length = n) → j + 1 < blocks.length →
    (fold (blocks.take (j + 1)) n).1 ≤ 2 ^ n - 1 ∧ val (blocks.getD (j + 1) []) ≤ 2 ^ n - 1

/-- What the fold computes (42_checksum_encoder.md R99): 0 for all-zero blocks, else the unique r from 1 to
2^n - 1 congruent to the total modulo 2^n - 1; for n = 1, the OR of the bits. -/
def Obligations.FoldIsOnesComplementSum : Prop :=
  ∀ (blocks : List Bits) (n : Nat), 1 ≤ n → blocks ≠ [] → (∀ b ∈ blocks, b.length = n) →
    let r := (fold blocks n).1
    let total := (blocks.map val).sum
    ((∀ b ∈ blocks, val b = 0) → r = 0) ∧
    ((∃ b ∈ blocks, val b ≠ 0) →
      1 ≤ r ∧ r ≤ 2 ^ n - 1 ∧ r % (2 ^ n - 1) = total % (2 ^ n - 1) ∧
      ∀ r', 1 ≤ r' → r' ≤ 2 ^ n - 1 → r' % (2 ^ n - 1) = total % (2 ^ n - 1) → r' = r) ∧
    (n = 1 → (r = 1 ↔ ∃ b ∈ blocks, true ∈ b))

/-- Each addition of the fold has its T_ADD (42_checksum_encoder.md R94, 30_encoding.md R63): index from 1, the
sum before, the block, the raw sum in n + 1 bits with the carry as its first bit, and the sum after, which the
next addition starts from; the fold starts from the first block, with no addition. -/
def Obligations.FoldTraceShowsEachAddition : Prop :=
  ∀ (blocks : List Bits) (n : Nat), 1 ≤ n → blocks ≠ [] → (∀ b ∈ blocks, b.length = n) →
    (fold blocks n).2.length = blocks.length - 1 ∧
    (fold (blocks.take 1) n).1 = val (blocks.getD 0 []) ∧
    ∀ j, j + 1 < blocks.length →
      let acc := (fold (blocks.take (j + 1)) n).1
      let b := blocks.getD (j + 1) []
      ∃ carry : Bool, ∃ raw : Bits,
        (fold blocks n).2[j]? =
          some (.tAdd (j + 1) (bin acc n) b raw carry (bin (fold (blocks.take (j + 2)) n).1 n)) ∧
        raw.length = n + 1 ∧ val raw = acc + val b ∧ raw.head? = some carry ∧
        val (bin (fold (blocks.take (j + 2)) n).1 n) = (acc + val b) % 2 ^ n + carry.toNat

/-- `onesComplement` (42_checksum_encoder.md R95): 2^n - 1 minus the sum, every bit inverted. -/
def Obligations.OnesComplementInvertsEveryBit : Prop :=
  (∀ s n : Nat, s ≤ 2 ^ n - 1 →
    onesComplement s n = 2 ^ n - 1 - s ∧ bin (onesComplement s n) n = notBits (bin s n)) ∧
  (∀ n : Nat, onesComplement 0 n = 2 ^ n - 1 ∧ onesComplement (2 ^ n - 1) n = 0) ∧
  onesComplement 183 8 = 72

/-- `lrcOf` is the bitwise XOR of all the rows, and of one row is that row (43_lrc_encoder.md R103). -/
def Obligations.LrcIsXorOfRows : Prop :=
  ∀ (rows : List Bits) (n : Nat), (∀ r ∈ rows, r.length = n) →
    (lrcOf rows n).length = n ∧
    (∀ c, c < n → (lrcOf rows n)[c]? = some (decide (columnCount rows c % 2 = 1))) ∧
    lrcOf rows n = rows.foldl xorBits (zeros n) ∧
    ∀ r, r.length = n → lrcOf [r] n = r

/-- The facts 1, 2, 3, 5 and 6 of 44_crc_divider.md R110 about the division: each XOR clears the leading bit of
its window, the scanned part of SCR ends as zeros, the remainder has k - 1 bits, the positions increase and are
at most len - k + 1 many. -/
def Obligations.XorDivideClearsScannedBits : Prop :=
  ∀ d g : Bits, 2 ≤ g.length → g.head? = some true → g.length - 1 ≤ d.length →
    (xorDivide d g).1.length = g.length - 1 ∧
    (scanAll d g).1 = List.replicate (d.length + 1 - g.length) false ++ (xorDivide d g).1 ∧
    (xorDivide d g).2.length ≤ d.length + 1 - g.length ∧
    (∀ x ∈ (xorDivide d g).2, ∃ pos before after, x = .tXor pos before after ∧
      before.length = g.length ∧ before.head? = some true ∧ after = xorBits before g ∧
      after.head? = some false ∧ pos + g.length ≤ d.length) ∧
    ((xorDivide d g).2.map fun x => x.numbers.headD 0).Pairwise (· < ·)

/-- The remainder is the remainder of polynomial division over GF(2) (44_crc_divider.md R110 item 4). -/
def Obligations.RemainderIsPolynomialRemainder : Prop :=
  ∀ d g : Bits, 2 ≤ g.length → g.head? = some true → g.length - 1 ≤ d.length →
    polyOf (xorDivide d g).1 = polyOf d %ₘ polyOf g ∧ (xorDivide d g).1.length = g.length - 1

/-! ### Encode and verify -/

/-- Round trip, parity (46_properties.md R132): the frame of PAR.ENC verifies with the same n and PK. -/
def Obligations.ParityRoundTrip : Prop :=
  ∀ (pk : ParityKind) (n : Int) (s : State) (p : Bits), s.raw = binary p → p ≠ [] → 1 ≤ n →
    ∃ f, frameOf (.parEnc pk n) s = some f ∧
      ∀ s' : State, s'.raw = binary f → verdictOf (.parVer pk n) s' = some true

/-- Round trip and all-ones invariant, checksum (46_properties.md R132, R136). -/
def Obligations.ChecksumRoundTripSumIsAllOnes : Prop :=
  ∀ (pk pk' : ParityKind) (n : Int) (s : State) (p : Bits), s.raw = binary p → p ≠ [] → 1 ≤ n →
    ∃ f, frameOf (.csumEnc pk n) s = some f ∧
      ∀ s' : State, s'.raw = binary f →
        verdictOf (.csumVer pk' n) s' = some true ∧
        ∃ blocks tr, responseOf (.csumVer pk' n) s' =
          some (.ok (.csumVer blocks (List.replicate n.toNat true) true) tr)

/-- Round trip, LRC (46_properties.md R132), with whitespace anywhere in the payload and in the frame shown
again (40_shared_primitives.md R83). -/
def Obligations.LrcRoundTrip : Prop :=
  ∀ (pk pk' : ParityKind) (n : Int) (s : State) (p : Bits), strip s.raw = binary p → p ≠ [] → 1 ≤ n →
    ∃ f, frameOf (.lrcEnc pk n) s = some f ∧
      ∀ s' : State, strip s'.raw = binary f → verdictOf (.lrcVer pk' n) s' = some true

/-- Round trip, CRC (46_properties.md R132): the frame of CRC.ENC verifies with the same polynomial. -/
def Obligations.CrcRoundTrip : Prop :=
  ∀ (pk pk' : ParityKind) (n n' : Int) (s : State) (p g : Bits), s.raw = binary p → s.g0 = binary g →
    p ≠ [] → 2 ≤ g.length → g.head? = some true →
    ∃ f, frameOf (.crcEnc pk n) s = some f ∧
      ∀ s' : State, s'.raw = binary f → s'.g0 = binary g → verdictOf (.crcVer pk' n') s' = some true

/-- CSUM.VER finds a frame valid iff its blocks are not all zero and their total is a multiple of 2^n - 1
(45_verify_reduce_and_predicate.md R124). -/
def Obligations.CsumVerValidIffTotalIsMultiple : Prop :=
  ∀ (pk : ParityKind) (n : Int) (s : State) (f : Bits), s.raw = binary f → f ≠ [] → 1 ≤ n →
    ∃ v, verdictOf (.csumVer pk n) s = some v ∧
      (v = true ↔ (∃ b ∈ splitBlocks f n.toNat, val b ≠ 0) ∧
        (2 ^ n.toNat - 1) ∣ ((splitBlocks f n.toNat).map val).sum)

/-- CRC.VER finds a frame valid iff the polynomial it spells is a multiple of the polynomial g spells
(45_verify_reduce_and_predicate.md R128). -/
def Obligations.CrcVerValidIffMultipleOfPolynomial : Prop :=
  ∀ (pk : ParityKind) (n : Int) (s : State) (f g : Bits), s.raw = binary f → s.g0 = binary g → f ≠ [] →
    2 ≤ g.length → g.head? = some true → g.length - 1 ≤ f.length →
    ∃ v, verdictOf (.crcVer pk n) s = some v ∧ (v = true ↔ polyOf g ∣ polyOf f)

/-- Any single flip of a checksum frame is detected when n ≥ 2 (46_properties.md R133, 90_conflicts.md
C3). -/
def Obligations.ChecksumDetectsSingleFlip : Prop :=
  ∀ (pk : ParityKind) (n : Int) (s : State) (p : Bits), s.raw = binary p → p ≠ [] → 2 ≤ n →
    ∃ f, frameOf (.csumEnc pk n) s = some f ∧
      ∀ i < f.length, ∀ s' : State, s'.raw = binary (flipBit f i) →
        verdictOf (.csumVer pk n) s' = some false

/-- Any single flip of a CRC frame is detected when g has a '1' after its first bit (46_properties.md R133,
90_conflicts.md C4). -/
def Obligations.CrcDetectsSingleFlip : Prop :=
  ∀ (pk : ParityKind) (n : Int) (s : State) (p g : Bits), s.raw = binary p → s.g0 = binary g → p ≠ [] →
    2 ≤ g.length → g.head? = some true → true ∈ g.tail →
    ∃ f, frameOf (.crcEnc pk n) s = some f ∧
      ∀ i < f.length, ∀ s' : State, s'.raw = binary (flipBit f i) → s'.g0 = binary g →
        verdictOf (.crcVer pk n) s' = some false

/-- CRC burst detection (46_properties.md R134): with j trailing zeros in g, every burst of length up to
k - 1 - j is detected, wherever it falls in a valid frame, and a burst of length k - j that is missed exists:
g without its trailing zeros, where at least j bits follow it. -/
def Obligations.CrcBurstDetection : Prop :=
  ∀ (pk : ParityKind) (n : Int) (s s' : State) (f h b : Bits) (j x y : Nat),
    h.head? = some true → h.getLast? = some true → 2 ≤ h.length + j →
    s.raw = binary f → s.g0 = binary (h ++ zeros j) → verdictOf (.crcVer pk n) s = some true →
    f.length = x + b.length + y → b.head? = some true → b.getLast? = some true →
    s'.raw = binary (xorBits f (zeros x ++ b ++ zeros y)) → s'.g0 = s.g0 →
    (b.length ≤ (h.length + j) - 1 - j → verdictOf (.crcVer pk n) s' = some false) ∧
    (b = h → j ≤ y → verdictOf (.crcVer pk n) s' = some true)

/-- A set of flips of a valid parity frame goes undetected iff every chunk holds an even number of them
(46_properties.md R135). -/
def Obligations.ParityMissesExactlyEvenFlipsPerChunk : Prop :=
  ∀ (pk : ParityKind) (n : Int) (s s' : State) (f f' : Bits), s.raw = binary f → s'.raw = binary f' →
    f'.length = f.length → 1 ≤ n → verdictOf (.parVer pk n) s = some true →
    ∃ v, verdictOf (.parVer pk n) s' = some v ∧
      (v = true ↔ ∀ c, flipsAt f f' (fun i => i / (n.toNat + 1) == c) % 2 = 0)

/-- A set of flips of a valid LRC frame goes undetected iff every column holds an even number of them
(46_properties.md R135, 45_verify_reduce_and_predicate.md R126). -/
def Obligations.LrcMissesExactlyEvenFlipsPerColumn : Prop :=
  ∀ (pk : ParityKind) (n : Int) (s s' : State) (f f' : Bits), strip s.raw = binary f →
    strip s'.raw = binary f' → f'.length = f.length → 1 ≤ n → verdictOf (.lrcVer pk n) s = some true →
    ∃ v, verdictOf (.lrcVer pk n) s' = some v ∧
      (v = true ↔ ∀ c, flipsAt f f' (fun i => i % n.toNat == c) % 2 = 0)

/-- The two counterexamples to single-flip detection outside its domains (46_properties.md R133,
90_conflicts.md C3, C4): a checksum frame at n = 1, and a CRC frame with g = "10". -/
def Obligations.UndetectedFlipsOutsideTheDomains : Prop :=
  (∀ s s' : State, s.raw = binary [false] → s'.raw = binary [true, true] →
    frameOf (.csumEnc .even 1) s = some [false, true] ∧ verdictOf (.csumVer .even 1) s' = some true) ∧
  ∀ s s' : State, s.raw = binary [true] → s'.raw = binary [false, false] →
    s.g0 = binary [true, false] → s'.g0 = binary [true, false] →
    frameOf (.crcEnc .even 0) s = some [true, false] ∧ verdictOf (.crcVer .even 0) s' = some true

/-! ### The end of a run -/

/-- A run ends when its last command has completed (70_reset_and_hazards.md R174): with no command left to
issue, the step of a busy block whose command has a response reaches an end, whatever reads or resets are
still to come; a state with BUSY = 1 is no end; and from an end every step, a read or a wait, keeps the
response and is an end, but for a reset. The HOST's list of moves is the model's (log 3). -/
def Obligations.RunEndsWhenLastCommandCompletes : Prop :=
  (∀ s : State, s.busy = true → resetPending s = false → noIssueLeft s.host.moves = true →
    respond s.command ≠ none → ∃ t, step s = .next t ∧ Final t) ∧
  (∀ s : State, s.busy = true → ¬ Final s) ∧
  ∀ s : State, Final s →
    ∃ t, step s = .next t ∧
      ((Final t ∧ t.resp = s.resp) ∨
        ∃ rest, s.host.moves = .reset :: rest ∧ t.busy = false ∧ t.resp = none)
end

