-- ==== Sys2Proof/Laws/Bits.lean ====
section
/-!
SUPPORT. Small lemmas of the bit-string functions and of the passage between symbols and bits.
-/

namespace Sys2Proof.Machine

/-! ### Lengths -/

@[simp] theorem zeros_length (w : Nat) : (zeros w).length = w := by simp [zeros]
@[simp] theorem ones_length (w : Nat) : (ones w).length = w := by simp [ones]
@[simp] theorem bin_length (v w : Nat) : (bin v w).length = w := by simp [bin]
@[simp] theorem notBits_length (a : Bits) : (notBits a).length = a.length := by simp [notBits]
@[simp] theorem xorBits_length (a b : Bits) : (xorBits a b).length = min a.length b.length := by
  simp [xorBits]
@[simp] theorem sub_length (s : Bits) (i j : Nat) : (sub s i j).length = min j s.length - i := by
  simp [sub]
@[simp] theorem binary_length (p : Bits) : (binary p).length = p.length := by simp [binary]

/-! ### Symbols and bits -/

@[simp] theorem bitOf_symbolOf (b : Bool) : bitOf (symbolOf b) = b := by cases b <;> rfl
@[simp] theorem isBinary_symbolOf (b : Bool) : isBinary (symbolOf b) = true := by cases b <;> rfl
@[simp] theorem symbolOf_ne_sw (b : Bool) : symbolOf b ≠ .sw := by cases b <;> simp [symbolOf]
@[simp] theorem symbolOf_ne_sx (b : Bool) : symbolOf b ≠ .sx := by cases b <;> simp [symbolOf]

theorem symbolOf_bitOf {c : Symbol} (h : isBinary c = true) : symbolOf (bitOf c) = c := by
  cases c <;> simp_all [isBinary, symbolOf, bitOf]

@[simp] theorem bitsOf_binary (p : Bits) : bitsOf (binary p) = p := by
  simp [bitsOf, binary, Function.comp_def]

@[simp] theorem strip_binary (p : Bits) : strip (binary p) = binary p := by
  rw [strip, List.filter_eq_self]
  intro c hc
  obtain ⟨b, -, rfl⟩ := List.mem_map.mp hc
  cases b <;> decide

theorem all_isBinary_binary (p : Bits) : (binary p).all isBinary = true := by
  rw [List.all_eq_true]
  intro c hc
  obtain ⟨b, -, rfl⟩ := List.mem_map.mp hc
  exact isBinary_symbolOf b

/-- No symbol of a presented bit string is SW or SX. -/
theorem binary_any (g : Bits) : (binary g).any (fun c => c == .sw || c == .sx) = false := by
  rw [List.any_eq_false]
  intro c hc
  obtain ⟨b, -, rfl⟩ := List.mem_map.mp hc
  cases b <;> decide

@[simp] theorem binary_eq_nil (p : Bits) : binary p = [] ↔ p = [] := by simp [binary]

theorem binary_bitsOf {t : List Symbol} (h : t.all isBinary = true) : binary (bitsOf t) = t := by
  induction t with
  | nil => rfl
  | cons c t ih =>
    simp only [List.all_cons, Bool.and_eq_true] at h
    have := ih h.2
    simp_all [binary, bitsOf, symbolOf_bitOf]

/-- What passes validation is a non-empty string of S0 and S1 (40_shared_primitives.md R75, R76). -/
theorem validate_iff (raw : List Symbol) (lrc : Bool) :
    validate raw lrc = true ↔
      (if lrc then strip raw else raw) ≠ [] ∧ (if lrc then strip raw else raw).all isBinary = true := by
  simp [validate, Nat.one_le_iff_ne_zero]

theorem validate_binary {p : Bits} (h : p ≠ []) (lrc : Bool) : validate (binary p) lrc = true := by
  rw [validate_iff]
  cases lrc <;> simp only [strip_binary, if_true, if_false, Bool.false_eq_true] <;>
    exact ⟨by simpa using h, all_isBinary_binary p⟩

/-! ### val -/

theorem val_append_single (s : Bits) (b : Bool) : val (s ++ [b]) = 2 * val s + b.toNat := by
  simp [val]

theorem val_foldl (s : Bits) (v : Nat) :
    s.foldl (fun v b => 2 * v + b.toNat) v = v * 2 ^ s.length + val s := by
  induction s generalizing v with
  | nil => simp [val]
  | cons b s ih =>
    simp only [List.foldl_cons, List.length_cons, val]
    rw [ih, ih (2 * 0 + b.toNat)]
    ring

theorem val_cons (b : Bool) (s : Bits) : val (b :: s) = b.toNat * 2 ^ s.length + val s := by
  show s.foldl _ (2 * 0 + b.toNat) = _
  rw [val_foldl]
  simp

theorem val_lt (s : Bits) : val s < 2 ^ s.length := by
  induction s with
  | nil => simp [val]
  | cons b s ih =>
    rw [val_cons, List.length_cons, Nat.pow_succ]
    cases b <;> simp <;> omega

/-! ### addWrap -/

/-- The carry is 0 or 1 (42_checksum_encoder.md R92). -/
theorem addCarry_le_one {a b n : Nat} (ha : a < 2 ^ n) (hb : b < 2 ^ n) : addCarry a b n ≤ 1 := by
  have hab : addRaw a b < 2 ^ n * 2 := by unfold addRaw; omega
  exact Nat.lt_succ_iff.mp (Nat.div_lt_of_lt_mul hab)

/-! ### Counting -/

theorem countOnes_append (a b : Bits) : countOnes (a ++ b) = countOnes a + countOnes b := by
  simp [countOnes]

theorem parityBit_eq (b : Bits) (pk : ParityKind) :
    parityBit b pk = ((countOnes b % 2 == 1) != pk.bit) := by
  have h := Nat.mod_two_eq_zero_or_one (countOnes b)
  cases pk <;> rcases h with h | h <;> simp [parityBit, h, ParityKind.bit]

end Sys2Proof.Machine
end

