-- ==== Sys2Proof/Laws/State.lean ====
section
/-!
SUPPORT. One lemma per field of State for each of its updates, so that no later proof unfolds a record
update.
-/

namespace Sys2Proof.Machine

/-! ### State.finish -/

@[simp] theorem State.finish_w0 (r : Result) (tr : List TraceRec) (w : Work) (s : State) :
    (s.finish r tr w).w0 = s.w0 := rfl
@[simp] theorem State.finish_plen (r : Result) (tr : List TraceRec) (w : Work) (s : State) :
    (s.finish r tr w).plen = s.plen := rfl
@[simp] theorem State.finish_glen (r : Result) (tr : List TraceRec) (w : Work) (s : State) :
    (s.finish r tr w).glen = s.glen := rfl
@[simp] theorem State.finish_inBuf (r : Result) (tr : List TraceRec) (w : Work) (s : State) :
    (s.finish r tr w).inBuf = s.inBuf := rfl
@[simp] theorem State.finish_genBuf (r : Result) (tr : List TraceRec) (w : Work) (s : State) :
    (s.finish r tr w).genBuf = s.genBuf := rfl
@[simp] theorem State.finish_busy (r : Result) (tr : List TraceRec) (w : Work) (s : State) :
    (s.finish r tr w).busy = false := rfl
@[simp] theorem State.finish_resp (r : Result) (tr : List TraceRec) (w : Work) (s : State) :
    (s.finish r tr w).resp = some (.ok r tr) := rfl
@[simp] theorem State.finish_work (r : Result) (tr : List TraceRec) (w : Work) (s : State) :
    (s.finish r tr w).work = w := rfl
@[simp] theorem State.finish_capacity (r : Result) (tr : List TraceRec) (w : Work) (s : State) :
    (s.finish r tr w).capacity = s.capacity := rfl
@[simp] theorem State.finish_host (r : Result) (tr : List TraceRec) (w : Work) (s : State) :
    (s.finish r tr w).host = s.host := rfl

/-! ### State.raise -/

@[simp] theorem State.raise_w0 (k : ErrorKind) (s : State) :
    (s.raise k).w0 = s.w0 := rfl
@[simp] theorem State.raise_plen (k : ErrorKind) (s : State) :
    (s.raise k).plen = s.plen := rfl
@[simp] theorem State.raise_glen (k : ErrorKind) (s : State) :
    (s.raise k).glen = s.glen := rfl
@[simp] theorem State.raise_inBuf (k : ErrorKind) (s : State) :
    (s.raise k).inBuf = s.inBuf := rfl
@[simp] theorem State.raise_genBuf (k : ErrorKind) (s : State) :
    (s.raise k).genBuf = s.genBuf := rfl
@[simp] theorem State.raise_busy (k : ErrorKind) (s : State) :
    (s.raise k).busy = false := rfl
@[simp] theorem State.raise_resp (k : ErrorKind) (s : State) :
    (s.raise k).resp = some (.error k) := rfl
@[simp] theorem State.raise_work (k : ErrorKind) (s : State) :
    (s.raise k).work = s.work := rfl
@[simp] theorem State.raise_capacity (k : ErrorKind) (s : State) :
    (s.raise k).capacity = s.capacity := rfl
@[simp] theorem State.raise_host (k : ErrorKind) (s : State) :
    (s.raise k).host = s.host := rfl

/-! ### State.hostNext -/

@[simp] theorem State.hostNext_w0 (rest : List HostMove) (s : State) :
    (s.hostNext rest).w0 = s.w0 := rfl
@[simp] theorem State.hostNext_plen (rest : List HostMove) (s : State) :
    (s.hostNext rest).plen = s.plen := rfl
@[simp] theorem State.hostNext_glen (rest : List HostMove) (s : State) :
    (s.hostNext rest).glen = s.glen := rfl
@[simp] theorem State.hostNext_inBuf (rest : List HostMove) (s : State) :
    (s.hostNext rest).inBuf = s.inBuf := rfl
@[simp] theorem State.hostNext_genBuf (rest : List HostMove) (s : State) :
    (s.hostNext rest).genBuf = s.genBuf := rfl
@[simp] theorem State.hostNext_busy (rest : List HostMove) (s : State) :
    (s.hostNext rest).busy = s.busy := rfl
@[simp] theorem State.hostNext_resp (rest : List HostMove) (s : State) :
    (s.hostNext rest).resp = s.resp := rfl
@[simp] theorem State.hostNext_work (rest : List HostMove) (s : State) :
    (s.hostNext rest).work = s.work := rfl
@[simp] theorem State.hostNext_capacity (rest : List HostMove) (s : State) :
    (s.hostNext rest).capacity = s.capacity := rfl
@[simp] theorem State.hostNext_host (rest : List HostMove) (s : State) :
    (s.hostNext rest).host = { s.host with moves := rest } := rfl

/-! ### loadCommand -/

@[simp] theorem loadCommand_w0 (c : Command) (s : State) :
    (loadCommand c s).w0 = c.w0 := rfl
@[simp] theorem loadCommand_plen (c : Command) (s : State) :
    (loadCommand c s).plen = c.plen := rfl
@[simp] theorem loadCommand_glen (c : Command) (s : State) :
    (loadCommand c s).glen = c.glen := rfl
@[simp] theorem loadCommand_inBuf (c : Command) (s : State) :
    (loadCommand c s).inBuf = c.inBuf := rfl
@[simp] theorem loadCommand_genBuf (c : Command) (s : State) :
    (loadCommand c s).genBuf = c.genBuf := rfl
@[simp] theorem loadCommand_busy (c : Command) (s : State) :
    (loadCommand c s).busy = true := rfl
@[simp] theorem loadCommand_resp (c : Command) (s : State) :
    (loadCommand c s).resp = none := rfl
@[simp] theorem loadCommand_work (c : Command) (s : State) :
    (loadCommand c s).work = s.work := rfl
@[simp] theorem loadCommand_capacity (c : Command) (s : State) :
    (loadCommand c s).capacity = s.capacity := rfl
@[simp] theorem loadCommand_host (c : Command) (s : State) :
    (loadCommand c s).host = s.host := rfl

/-! ### resetInstance -/

@[simp] theorem resetInstance_w0 (rest : List HostMove) (s : State) :
    (resetInstance rest s).w0 = State.reset.w0 := rfl
@[simp] theorem resetInstance_plen (rest : List HostMove) (s : State) :
    (resetInstance rest s).plen = State.reset.plen := rfl
@[simp] theorem resetInstance_glen (rest : List HostMove) (s : State) :
    (resetInstance rest s).glen = State.reset.glen := rfl
@[simp] theorem resetInstance_inBuf (rest : List HostMove) (s : State) :
    (resetInstance rest s).inBuf = State.reset.inBuf := rfl
@[simp] theorem resetInstance_genBuf (rest : List HostMove) (s : State) :
    (resetInstance rest s).genBuf = State.reset.genBuf := rfl
@[simp] theorem resetInstance_busy (rest : List HostMove) (s : State) :
    (resetInstance rest s).busy = false := rfl
@[simp] theorem resetInstance_resp (rest : List HostMove) (s : State) :
    (resetInstance rest s).resp = none := rfl
@[simp] theorem resetInstance_work (rest : List HostMove) (s : State) :
    (resetInstance rest s).work = State.reset.work := rfl
@[simp] theorem resetInstance_capacity (rest : List HostMove) (s : State) :
    (resetInstance rest s).capacity = s.capacity := rfl
@[simp] theorem resetInstance_host (rest : List HostMove) (s : State) :
    (resetInstance rest s).host = { s.host with moves := rest } := rfl

/-! ### The command and the operands after an update -/

@[simp] theorem State.finish_command (r : Result) (tr : List TraceRec) (w : Work) (s : State) :
    (s.finish r tr w).command = s.command := rfl
@[simp] theorem State.raise_command (k : ErrorKind) (s : State) :
    (s.raise k).command = s.command := rfl
@[simp] theorem State.hostNext_command (rest : List HostMove) (s : State) :
    (s.hostNext rest).command = s.command := rfl
@[simp] theorem loadCommand_command (c : Command) (s : State) : (loadCommand c s).command = c := rfl
@[simp] theorem State.hostNext_raw (rest : List HostMove) (s : State) :
    (s.hostNext rest).raw = s.raw := rfl
@[simp] theorem State.hostNext_g0 (rest : List HostMove) (s : State) :
    (s.hostNext rest).g0 = s.g0 := rfl

end Sys2Proof.Machine
end

