-- ==== Sys2Proof/Laws/Ops.lean ====
section
/-!
SUPPORT. What each shared operation and each step can do, said once: inversion lemmas that later proofs
cite instead of unfolding, and that every operation keeps the canonical form of the buffers.
-/

namespace Sys2Proof.Machine

/-! ### runChecked -/

/-- Everything `runChecked` can do: an error status, the refusal, or the operation's response. -/
theorem runChecked_cases (op : Op) (n : Int) (s : State) (f : Bits → Bits → Done) :
    (∃ k, check op n s.raw s.g0 = .error k ∧ runChecked op n s f = .next (s.raise k)) ∨
    (check op n s.raw s.g0 = .refused ∧ runChecked op n s f = .refused .crcShortFrame) ∨
    (∃ p g, check op n s.raw s.g0 = .ok p g ∧
      runChecked op n s f = .next (s.finish (f p g).result (f p g).trace (f p g).work)) := by
  unfold runChecked
  cases check op n s.raw s.g0 with
  | error k => exact .inl ⟨k, rfl, rfl⟩
  | refused => exact .inr (.inl ⟨rfl, rfl⟩)
  | ok p g => exact .inr (.inr ⟨p, g, rfl, rfl⟩)

theorem runChecked_ok {op : Op} {n : Int} {s : State} {p g : Bits} (f : Bits → Bits → Done)
    (h : check op n s.raw s.g0 = .ok p g) :
    runChecked op n s f = .next (s.finish (f p g).result (f p g).trace (f p g).work) := by
  simp [runChecked, h]

/-- For the CRC operations the check does not look at n (60_exceptions.md R147). -/
theorem check_crc {op : Op} (h : op.isCrc = true) (n n' : Int) (raw g0 : List Symbol) :
    check op n raw g0 = check op n' raw g0 := by
  simp [check, h]

/-- For the other operations the check does not look at the polynomial (60_exceptions.md R147). -/
theorem check_not_crc {op : Op} (h : op.isCrc = false) (n : Int) (raw g0 g0' : List Symbol) :
    check op n raw g0 = check op n raw g0' := by
  simp [check, h]

/-- Every meaning has one shape: the check, then the operation (30_encoding.md R69). -/
theorem exec_eq_runChecked (i : Instr) (s : State) :
    exec i s = runChecked i.op i.blockSize s fun p g => operate i p g s.work := by
  cases i with
  | crcEnc pk n => simp only [exec, execCrcEnc, runChecked, Instr.op, operate]; rw [check_crc rfl]
  | crcVer pk n => simp only [exec, execCrcVer, runChecked, Instr.op, operate]; rw [check_crc rfl]
  | _ => rfl

/-- Everything a meaning can do. -/
theorem exec_cases (i : Instr) (s : State) :
    (∃ k, check i.op i.blockSize s.raw s.g0 = .error k ∧ exec i s = .next (s.raise k)) ∨
    (check i.op i.blockSize s.raw s.g0 = .refused ∧ exec i s = .refused .crcShortFrame) ∨
    (∃ p g, check i.op i.blockSize s.raw s.g0 = .ok p g ∧
      exec i s = .next (s.finish (operate i p g s.work).result (operate i p g s.work).trace
        (operate i p g s.work).work)) := by
  rw [exec_eq_runChecked]
  exact runChecked_cases ..

/-! ### The check on well-presented operands -/

/-- The check accepts a binary payload and a positive block size; for the LRC operations SW may stand
anywhere (60_exceptions.md R147). -/
theorem check_sized {op : Op} {n : Int} {raw g0 : List Symbol} {p : Bits} (hcrc : op.isCrc = false)
    (hn : 1 ≤ n) (hp : p ≠ []) (hraw : (if op.isLrc then strip raw else raw) = binary p) :
    check op n raw g0 = .ok p [] := by
  have hv : validate raw op.isLrc = true := by
    rw [validate_iff, hraw]
    exact ⟨by simpa using hp, all_isBinary_binary p⟩
  have hop : op ≠ .crcVer := by rintro rfl; cases hcrc
  have hle : ¬ n ≤ 0 := by omega
  simp only [check, hv, hcrc, hle, hop]
  cases hl : op.isLrc <;> simp_all

/-- The check accepts binary data and a polynomial of at least two bits that starts with '1', unless the
operation is CRC.VER and the frame is short (60_exceptions.md R147, R151). -/
theorem check_crc_ok {op : Op} {n : Int} {p g : Bits} (hcrc : op.isCrc = true) (hp : p ≠ [])
    (hg : 2 ≤ g.length) (hg1 : g.head? = some true)
    (hlen : op = .crcVer → g.length - 1 ≤ p.length) :
    check op n (binary p) (binary g) = .ok p g := by
  have hl : op.isLrc = false := by cases op <;> first | rfl | cases hcrc
  have hh : (binary g).head? = some .s1 := by simp [binary, hg1, symbolOf]
  have h2 : ¬ g.length < 2 := by omega
  have h3 : ¬ (op = .crcVer ∧ p.length < g.length - 1) := fun h => by have := hlen h.1; omega
  simp only [check, hl, hcrc, validate_binary hp, binary_any, hh, binary_length, h2, h3, bitsOf_binary,
    not_true, and_false, false_and, if_false, Bool.false_eq_true, if_true, ne_eq]

/-! ### The HOST's moves -/

/-- Everything `issue` can do. -/
theorem issue_cases (c : Command) (rest : List HostMove) (s : State) :
    (¬ c.WellFormed ∧ issue c rest s = .refused .notACommand) ∨
    (c.WellFormed ∧ admits s.capacity c = true ∧
      issue c rest s = .next ((loadCommand c s).hostNext rest)) ∨
    (c.WellFormed ∧ admits s.capacity c = false ∧ issue c rest s = .refused .outsideCapacity) := by
  unfold issue
  by_cases hw : c.WellFormed
  · right
    rw [if_neg (not_not.mpr hw)]
    cases ha : admits s.capacity c
    · exact .inr ⟨hw, rfl, rfl⟩
    · exact .inl ⟨hw, rfl, rfl⟩
  · exact .inl ⟨hw, if_pos hw⟩

/-- Everything `read` can do. -/
theorem readResponse_cases (rest : List HostMove) (s : State) :
    (∃ r, s.resp = some r ∧ readResponse rest s =
      .next { s with host := { moves := rest, received := s.host.received ++ [r] } }) ∨
    (s.resp = none ∧ readResponse rest s = .refused .readAbsent) := by
  unfold readResponse
  cases s.resp with
  | none => exact .inr ⟨rfl, rfl⟩
  | some r => exact .inl ⟨r, rfl, rfl⟩

/-! ### complete and step -/

/-- Everything `complete` can do. -/
theorem complete_cases (s : State) :
    (∃ e, decode s.w0 = .error e ∧ complete s = .next (s.raise .illegalCommand)) ∨
    (∃ i, decode s.w0 = .ok i ∧ complete s = exec i s) := by
  unfold complete
  cases decode s.w0 with
  | error e => exact .inl ⟨e, rfl, rfl⟩
  | ok i => exact .inr ⟨i, rfl, rfl⟩

/-- Everything a step can do: a reset, `complete`, waiting, `issue` or `read`. -/
theorem step_cases (s : State) :
    (∃ rest, s.host.moves = .reset :: rest ∧ step s = .next (resetInstance rest s)) ∨
    (s.busy = true ∧ resetPending s = false ∧ step s = complete s) ∨
    (s.busy = false ∧ s.host.moves = [] ∧ step s = .next s) ∨
    (∃ c rest, s.busy = false ∧ s.host.moves = .issue c :: rest ∧ step s = issue c rest s) ∨
    (∃ rest, s.busy = false ∧ s.host.moves = .read :: rest ∧ step s = readResponse rest s) := by
  unfold step advance resetPending
  cases hm : s.host.moves with
  | nil => cases hb : s.busy <;> simp
  | cons m rest => cases m <;> cases hb : s.busy <;> simp

@[simp] theorem noIssueLeft_nil : noIssueLeft [] = true := rfl
@[simp] theorem noIssueLeft_issue (c : Command) (rest : List HostMove) :
    noIssueLeft (.issue c :: rest) = false := rfl
@[simp] theorem noIssueLeft_read (rest : List HostMove) :
    noIssueLeft (.read :: rest) = noIssueLeft rest := rfl
@[simp] theorem noIssueLeft_reset (rest : List HostMove) :
    noIssueLeft (.reset :: rest) = noIssueLeft rest := rfl

/-- A busy block with no reset pending completes. -/
theorem step_of_busy {s : State} (hb : s.busy = true) (hr : resetPending s = false) :
    step s = complete s := by
  rcases step_cases s with ⟨_, h, -⟩ | ⟨-, -, h⟩ | ⟨h, -⟩ | ⟨_, _, h, -⟩ | ⟨_, h, -⟩
  · simp [resetPending, h] at hr
  · exact h
  all_goals rw [hb] at h; cases h

/-- The result and the trace of an operation do not depend on the working registers (10_state.md R25). -/
theorem operate_work (i : Instr) (p g : Bits) (w w' : Work) :
    (operate i p g w).result = (operate i p g w').result ∧
      (operate i p g w).trace = (operate i p g w').trace := by
  cases i <;> exact ⟨rfl, rfl⟩

/-- Everything `respond` can say of the command a state holds, beside what `complete` then does. -/
theorem complete_respond (s : State) :
    (∃ k, respond s.command = some (.error k) ∧ complete s = .next (s.raise k)) ∨
    (respond s.command = none ∧ complete s = .refused .crcShortFrame) ∨
    (∃ r tr w, respond s.command = some (.ok r tr) ∧ complete s = .next (s.finish r tr w)) := by
  have hcmd : ∀ i, decode s.w0 = .ok i → respond s.command =
      match check i.op i.blockSize s.raw s.g0 with
      | .error kind => some (.error kind)
      | .refused => none
      | .ok p g =>
        some (.ok (operate i p g Work.reset).result (operate i p g Work.reset).trace) := by
    intro i hd
    show (match decode s.w0 with | .error _ => _ | .ok i => _) = _
    rw [hd]
    rfl
  rcases complete_cases s with ⟨e, hd, hc⟩ | ⟨i, hd, hc⟩
  · refine .inl ⟨.illegalCommand, ?_, hc⟩
    show (match decode s.w0 with | .error _ => _ | .ok i => _) = _
    rw [hd]
  · rw [hcmd i hd, hc]
    rcases exec_cases i s with ⟨k, hk, he⟩ | ⟨hk, he⟩ | ⟨p, g, hk, he⟩ <;> rw [hk, he]
    · exact .inl ⟨k, rfl, rfl⟩
    · exact .inr (.inl ⟨rfl, rfl⟩)
    · obtain ⟨hr, ht⟩ := operate_work i p g Work.reset s.work
      exact .inr (.inr ⟨_, _, (operate i p g s.work).work, by rw [← hr, ← ht], rfl⟩)

/-! ### The canonical form of the buffers -/

theorem memory_wf_iff (s : State) :
    Memory.wf s = true ↔
      s.inBuf.length = s.plen.toNat ∧ s.genBuf.length = s.glen.toNat := by
  simp [Memory.wf]

/-- In canonical form the payload is the whole of IN. -/
theorem raw_eq_inBuf {s : State} (h : Memory.wf s = true) : s.raw = s.inBuf := by
  rw [memory_wf_iff] at h
  simp [State.raw, memRead, ← h.1]

/-- In canonical form the polynomial is the whole of GEN. -/
theorem g0_eq_genBuf {s : State} (h : Memory.wf s = true) : s.g0 = s.genBuf := by
  rw [memory_wf_iff] at h
  simp [State.g0, memRead, ← h.2]

theorem memory_wf_reset : Memory.wf State.reset = true := rfl

theorem memory_wf_finish (r : Result) (tr : List TraceRec) (w : Work) (s : State) :
    Memory.wf (s.finish r tr w) = Memory.wf s := rfl

theorem memory_wf_raise (k : ErrorKind) (s : State) : Memory.wf (s.raise k) = Memory.wf s := rfl

theorem memory_wf_hostNext (rest : List HostMove) (s : State) :
    Memory.wf (s.hostNext rest) = Memory.wf s := rfl

theorem memory_wf_resetInstance (rest : List HostMove) (s : State) :
    Memory.wf (resetInstance rest s) = true := rfl

theorem memory_wf_loadCommand {c : Command} (h : c.WellFormed) (s : State) :
    Memory.wf (loadCommand c s) = true := by
  rw [memory_wf_iff]
  exact h

theorem cellsOf_length (v k : Nat) : (cellsOf v k).length = k := by
  induction k generalizing v with
  | zero => rfl
  | succ k ih => simp [cellsOf, ih]

/-- The command laid out in a number is a command. -/
theorem commandOfNat_wellFormed (v : Nat) : (commandOfNat v).WellFormed :=
  ⟨cellsOf_length _ _, cellsOf_length _ _⟩


theorem memory_wf_placeCommand (s : State) (nbits w : Nat) :
    Memory.wf (placeCommand s nbits w) = true := by
  rw [placeCommand, memory_wf_hostNext]
  exact memory_wf_loadCommand (commandOfNat_wellFormed _) s

/-- Every meaning keeps the canonical form. -/
theorem memory_wf_exec {i : Instr} {s t : State} (h : exec i s = .next t) :
    Memory.wf t = Memory.wf s := by
  rcases exec_cases i s with ⟨k, -, he⟩ | ⟨-, he⟩ | ⟨p, g, -, he⟩ <;> rw [he] at h <;> cases h <;> rfl

end Sys2Proof.Machine
end

