-- ==== Sys2Proof/Laws/Families.lean ====
section
/-!
SUPPORT. Small lemmas of the families' loops: lengths of traces and of the scratch string, and the recursion
equations of the fold and the scan.
-/

namespace Sys2Proof.Machine

/-! ### Checksum -/

theorem fold_cons (b : Bits) (bs : List Bits) (n : Nat) :
    fold (b :: bs) n = foldFrom n (val b) 1 bs := rfl

theorem foldFrom_trace_length (n acc i : Nat) (bs : List Bits) :
    (foldFrom n acc i bs).2.length = bs.length := by
  induction bs generalizing acc i with
  | nil => rfl
  | cons b bs ih => simp [foldFrom, ih]

/-- Folding more blocks goes on from the sum of the earlier ones. -/
theorem foldFrom_append (n acc i : Nat) (bs cs : List Bits) :
    foldFrom n acc i (bs ++ cs) =
      ((foldFrom n (foldFrom n acc i bs).1 (i + bs.length) cs).1,
        (foldFrom n acc i bs).2 ++ (foldFrom n (foldFrom n acc i bs).1 (i + bs.length) cs).2) := by
  induction bs generalizing acc i with
  | nil => simp [foldFrom]
  | cons b bs ih => simp [foldFrom, ih, Nat.add_assoc, Nat.add_comm 1 bs.length]

/-! ### CRC -/

/-- An XOR in place keeps the length of SCR where the window fits (44_crc_divider.md R109). -/
theorem xorAt_length {g scr : Bits} {pos : Nat} (h : pos + g.length ≤ scr.length) :
    (xorAt g scr pos).length = scr.length := by
  simp [xorAt, windowAfter, window]
  omega

theorem scan_length {g : Bits} (count pos : Nat) (scr : Bits)
    (h : count = 0 ∨ pos + count + g.length ≤ scr.length + 1) :
    (scan g count pos scr).1.length = scr.length := by
  induction count generalizing pos scr with
  | zero => rfl
  | succ count ih =>
    have hw : pos + g.length ≤ scr.length := by omega
    unfold scan
    split
    · rw [ih _ _ (by rw [xorAt_length hw]; omega), xorAt_length hw]
    · exact ih _ _ (by omega)

/-- The scan of a whole dividend keeps its length (44_crc_divider.md R109). -/
theorem scanAll_length (d g : Bits) : (scanAll d g).1.length = d.length := by
  refine scan_length _ _ _ ?_
  unfold scanCount
  omega

end Sys2Proof.Machine
end

