-- ==== Sys2Proof/Laws/PerInstr.lean ====
section
/-!
SUPPORT. A family of statements made per instruction: the fixed bits of an instruction's word are those of
its row in spec/opcode_table.json (match and mask 0x0000FFF7).
-/

namespace Sys2Proof.Laws

/-- The word of an instruction matches its row: OP in W0[2:0], zeros in W0[15:4] (30_encoding.md R58), PK
in W0[3] (R54). -/
def EncodeMatchesRow.Statement (i : Instr) : Prop :=
  opField (encode i) = i.op.code ∧ rsvField (encode i) = 0#12 ∧ pkField (encode i) = i.kind

/-- Each bit of a word put together from N, RSV, PK and OP (30_encoding.md R54). -/
theorem word_getLsbD (n : BitVec 16) (k : BitVec 1) (op : BitVec 3) (i : Nat) :
    BitVec.getLsbD (w := 32) (n ++ 0#12 ++ k ++ op) i =
      if i < 3 then op.getLsbD i else if i - 3 < 1 then k.getLsbD (i - 3)
      else if i - 3 - 1 < 12 then false else n.getLsbD (i - 3 - 1 - 12) := by
  change BitVec.getLsbD (w := 16 + 12 + 1 + 3) (n ++ 0#12 ++ k ++ op) i = _
  simp only [BitVec.getLsbD_append, BitVec.getLsbD_zero]

/-- The fields of a word put together from N, RSV, PK and OP. -/
theorem fields_of_word (n : BitVec 16) (pk : ParityKind) (op : BitVec 3) :
    opField (n ++ 0#12 ++ BitVec.ofBool pk.bit ++ op) = op ∧
      rsvField (n ++ 0#12 ++ BitVec.ofBool pk.bit ++ op) = 0#12 ∧
      pkField (n ++ 0#12 ++ BitVec.ofBool pk.bit ++ op) = pk := by
  refine ⟨?_, ?_, ?_⟩
  · ext i hi
    rw [opField, BitVec.getElem_extractLsb', word_getLsbD]
    simp [hi, BitVec.getLsbD_eq_getElem]
  · ext i hi
    rw [rsvField, BitVec.getElem_extractLsb', word_getLsbD]
    have h1 : ¬ 4 + i < 3 := by omega
    have h2 : ¬ 4 + i - 3 < 1 := by omega
    have h3 : 4 + i - 3 - 1 < 12 := by omega
    simp only [h1, h2, h3, if_false, if_true]
    simp
  · rw [pkField, word_getLsbD]
    cases pk <;> rfl

theorem nField_of_word (n : BitVec 16) (pk : ParityKind) (op : BitVec 3) :
    nField (n ++ 0#12 ++ BitVec.ofBool pk.bit ++ op) = n.toInt := by
  rw [nField]; congr 1
  ext i hi
  rw [BitVec.getElem_extractLsb', word_getLsbD]
  have h1 : ¬ 16 + i < 3 := by omega
  have h2 : ¬ 16 + i - 3 < 1 := by omega
  have h3 : ¬ 16 + i - 3 - 1 < 12 := by omega
  simp only [h1, h2, h3, if_false]
  rw [show 16 + i - 3 - 1 - 12 = i by omega, BitVec.getLsbD_eq_getElem]

/-- An opcode is the code of exactly one operation (30_encoding.md R58). -/
theorem ofCode_code (op : Op) : Op.ofCode op.code = op := by cases op <;> decide

theorem code_ofCode (c : BitVec 3) : (Op.ofCode c).code = c := by revert c; decide

theorem ofFields_self (i : Instr) : Instr.ofFields i.op i.kind i.blockSize = i := by cases i <;> rfl

theorem ofFields_op (op : Op) (pk : ParityKind) (n : Int) : (Instr.ofFields op pk n).op = op := by
  cases op <;> rfl

theorem ofFields_kind (op : Op) (pk : ParityKind) (n : Int) :
    (Instr.ofFields op pk n).kind = pk := by
  cases op <;> rfl

theorem ofFields_blockSize (op : Op) (pk : ParityKind) (n : Int) :
    (Instr.ofFields op pk n).blockSize = n := by
  cases op <;> rfl

theorem EncodeMatchesRow.parEnc (pk : ParityKind) (n : Int) : EncodeMatchesRow.Statement (.parEnc pk n) :=
  fields_of_word _ _ _
theorem EncodeMatchesRow.parVer (pk : ParityKind) (n : Int) : EncodeMatchesRow.Statement (.parVer pk n) :=
  fields_of_word _ _ _
theorem EncodeMatchesRow.csumEnc (pk : ParityKind) (n : Int) : EncodeMatchesRow.Statement (.csumEnc pk n) :=
  fields_of_word _ _ _
theorem EncodeMatchesRow.csumVer (pk : ParityKind) (n : Int) : EncodeMatchesRow.Statement (.csumVer pk n) :=
  fields_of_word _ _ _
theorem EncodeMatchesRow.lrcEnc (pk : ParityKind) (n : Int) : EncodeMatchesRow.Statement (.lrcEnc pk n) :=
  fields_of_word _ _ _
theorem EncodeMatchesRow.lrcVer (pk : ParityKind) (n : Int) : EncodeMatchesRow.Statement (.lrcVer pk n) :=
  fields_of_word _ _ _
theorem EncodeMatchesRow.crcEnc (pk : ParityKind) (n : Int) : EncodeMatchesRow.Statement (.crcEnc pk n) :=
  fields_of_word _ _ _
theorem EncodeMatchesRow.crcVer (pk : ParityKind) (n : Int) : EncodeMatchesRow.Statement (.crcVer pk n) :=
  fields_of_word _ _ _

end Sys2Proof.Laws
end

