-- ==== Sys2Proof/Tests/Slice0.lean ====
section
/-!
SUPPORT. The model's own tests. Expected values are those of spec/95_test_vectors.md and of the worked examples
the rules give, written out by hand; witnesses show that the hypotheses of each obligation can be met.
-/

namespace Sys2Proof.Tests

open Sys2Proof Sys2Proof.Machine

/-! ### Helpers -/

/-- A bit string written with '0' and '1'. -/
def b (t : String) : Bits := t.toList.map fun c => c == '1'

/-- A symbol string in the notation of 30_encoding.md R67. -/
def sy (t : String) : List Symbol := (symbolsOfChars t.toList).getD []

/-- The command with word `w` and the two strings. -/
def cmd (w : Word) (p g : String) : Command where
  w0 := w
  plen := BitVec.ofNat 32 (sy p).length
  glen := BitVec.ofNat 32 (sy g).length
  inBuf := sy p
  genBuf := sy g

/-- The state in which that command has just been issued after reset. -/
def issued (w : Word) (p g : String) : State := loadCommand (cmd w p g) State.reset

/-- The response in the next state. -/
def answer (o : Host.Outcome State Fault Refusal) : Option Response :=
  match o with
  | .next t => t.resp
  | .fault _ => none
  | .refused _ => none

/-- The refusal, if the step is refused. -/
def refusal (o : Host.Outcome State Fault Refusal) : Option Refusal :=
  match o with
  | .next _ => none
  | .fault _ => none
  | .refused r => some r

/-- The next state, if there is one. -/
def after (o : Host.Outcome State Fault Refusal) : Option State :=
  match o with
  | .next t => some t
  | .fault _ => none
  | .refused _ => none

/-! ### Well-formedness: each check refuses an ill-formed term (30_encoding.md R54, 10_state.md R19) -/

theorem test_wf_block_size_too_large : ¬ (Instr.parEnc .even 32768).WellFormed := by decide
theorem test_wf_block_size_too_small : ¬ (Instr.crcVer .odd (-32769)).WellFormed := by decide
theorem test_wf_block_size_bounds :
    (Instr.lrcEnc .even 32767).WellFormed ∧ (Instr.lrcEnc .even (-32768)).WellFormed := by decide
theorem test_wf_command_short_payload :
    ¬ { cmd 0#32 "101" "" with plen := 4#32 }.WellFormed := by decide
theorem test_wf_command_short_polynomial :
    ¬ { cmd 6#32 "101" "11" with glen := 1#32 }.WellFormed := by decide
theorem test_wf_command : (cmd 6#32 "10_x" "11").WellFormed := by decide

/-! ### Decoding: one word of every row, bit by bit (30_encoding.md R54, R58): N, RSV, PK, OP -/

theorem test_decode_par_enc :
    decode 0b0000000000001000_000000000000_0_000#32 = .ok (.parEnc .even 8) := by decide
theorem test_decode_par_ver :
    decode 0b0000000000000100_000000000000_1_001#32 = .ok (.parVer .odd 4) := by decide
theorem test_decode_csum_enc :
    decode 0b0000000000001000_000000000000_1_010#32 = .ok (.csumEnc .odd 8) := by decide
theorem test_decode_csum_ver :
    decode 0b1111111111111011_000000000000_0_011#32 = .ok (.csumVer .even (-5)) := by decide
theorem test_decode_lrc_enc :
    decode 0b0000000000000100_000000000000_1_100#32 = .ok (.lrcEnc .odd 4) := by decide
theorem test_decode_lrc_ver :
    decode 0b1000000000000000_000000000000_0_101#32 = .ok (.lrcVer .even (-32768)) := by decide
theorem test_decode_crc_enc :
    decode 0b0000010011010010_000000000000_1_110#32 = .ok (.crcEnc .odd 1234) := by decide
theorem test_decode_crc_ver :
    decode 0b0111111111111111_000000000000_0_111#32 = .ok (.crcVer .even 32767) := by decide
theorem test_decode_reserved_low :
    decode 0b0000000000001000_000000000001_0_000#32 = .error (.reservedBits 1#12) := by decide
theorem test_decode_reserved_high :
    decode 0b0000000000000000_100000000000_0_000#32 = .error (.reservedBits 0x800#12) := by decide
theorem test_encode_par_enc : encode (.parEnc .odd (-1)) = 0xFFFF0008#32 := by decide
theorem test_symbol_codes :
    [0b00#2, 0b01#2, 0b10#2, 0b11#2].map Symbol.ofCode = [.s0, .s1, .sw, .sx] ∧
      [Symbol.s0, .s1, .sw, .sx].map Symbol.code = [0b00#2, 0b01#2, 0b10#2, 0b11#2] := by decide

/-! ### Assembler syntax (30_encoding.md R67) -/

theorem test_assemble_example :
    (parseLine "PAR.ENC 8, even, \"1011001\"".toList).map Line.assemble =
      some (cmd 0x00080000#32 "1011001" "") := by decide
theorem test_assemble_crc :
    (parseLine "CRC.VER \"10_x\", \"1011\"".toList).map Line.assemble =
      some (cmd 0x00000007#32 "10_x" "1011") := by decide
theorem test_assemble_negative :
    (parseLine "CSUM.VER -5, \"1011\"".toList).map Line.assemble =
      some (cmd 0xFFFB0003#32 "1011" "") := by decide
theorem test_assemble_rejects : parseLine "PAR.ENC 8, even, \"10a\"".toList = none := by decide

/-! ### Shared functions (95_test_vectors.md Part 2) -/

theorem test_strip : strip (sy "1010_1") = sy "10101" ∧ strip (sy "___") = [] := by decide
theorem test_validate :
    validate (sy "1011") false = true ∧ validate (sy "10_1") false = false ∧
      validate (sy "10_1") true = true ∧ validate (sy "___") true = false ∧
      validate [] true = false ∧ validate (sy "1x") true = false := by decide
theorem test_split_blocks :
    splitBlocks (b "10111") 4 = [b "1011", b "1000"] ∧ splitBlocks (b "1011") 4 = [b "1011"] ∧
      splitBlocks (b "1") 3 = [b "100"] := by decide
theorem test_slice :
    slice (b "10111") 4 = [b "1011", b "1"] ∧ slice (b "1011001") 8 = [b "1011001"] := by decide
theorem test_fmt_bin :
    fmtBin 5 8 = b "00000101" ∧ fmtBin 9 3 = b "1001" ∧ fmtBin 0 3 = b "000" := by decide
theorem test_add_wrap :
    addWrap 12 7 4 = (19, 1, 4) ∧ addWrap 8 7 4 = (15, 0, 15) ∧ addWrap 8 8 4 = (16, 1, 1) ∧
      addWrap 15 15 4 = (30, 1, 15) ∧ addWrap 0 9 4 = (9, 0, 9) := by decide

/-! ### One step of each operation (95_test_vectors.md Parts 1 and 2) -/

theorem test_par_enc_short_last_block :
    answer (step (issued 0x00040008#32 "101100111" "")) =
      some (.ok (.parEnc [b "1011", b "0011", b "1"] (b "101100011110"))
        [.tPar 0 (b "1011") 3 false, .tPar 1 (b "0011") 2 true, .tPar 2 (b "1") 1 false]) := by decide
theorem test_par_enc_largest_n :
    answer (step (issued 0x7FFF0000#32 "101" "")) =
      some (.ok (.parEnc [b "101"] (b "1010")) [.tPar 0 (b "101") 2 false]) := by decide
theorem test_par_ver_one_bad_chunk :
    answer (step (issued 0x00040009#32 "101100111110" "")) =
      some (.ok (.parVer [b "10110", b "01111", b "10"] false)
        [.tParv 0 (b "1011") 3 false false true, .tParv 1 (b "0111") 3 false true false,
         .tParv 2 (b "1") 1 false false true]) := by decide
theorem test_par_ver_empty_data :
    answer (step (issued 0x00010001#32 "110" "")) =
      some (.ok (.parVer [b "11", b "0"] true)
        [.tParv 0 (b "1") 1 true true true, .tParv 1 [] 0 false false true]) := by decide
theorem test_csum_enc_two_wraps :
    answer (step (issued 0x00040002#32 "110011111010" "")) =
      some (.ok (.csumEnc [b "1100", b "1111", b "1010"] (b "0111") (b "1000") (b "1100111110101000"))
        [.tAdd 1 (b "1100") (b "1111") (b "11011") true (b "1100"),
         .tAdd 2 (b "1100") (b "1010") (b "10110") true (b "0111"),
         .tCpl (b "0111") (b "1000")]) := by decide
theorem test_csum_enc_pads :
    answer (step (issued 0x0004000A#32 "11" "")) =
      some (.ok (.csumEnc [b "1100"] (b "1100") (b "0011") (b "11000011"))
        [.tCpl (b "1100") (b "0011")]) := by decide
theorem test_csum_ver_corrupt :
    answer (step (issued 0x00040003#32 "1100111110100011" "")) =
      some (.ok (.csumVer [b "1100", b "1111", b "1010", b "0011"] (b "1010") false)
        [.tAdd 1 (b "1100") (b "1111") (b "11011") true (b "1100"),
         .tAdd 2 (b "1100") (b "1010") (b "10110") true (b "0111"),
         .tAdd 3 (b "0111") (b "0011") (b "01010") false (b "1010")]) := by decide
theorem test_csum_ver_n1 :
    answer (step (issued 0x00010003#32 "11" "")) =
      some (.ok (.csumVer [b "1", b "1"] (b "1") true)
        [.tAdd 1 (b "1") (b "1") (b "10") true (b "1")]) := by decide
theorem test_lrc_enc_whitespace :
    answer (step (issued 0x0004000C#32 "1011_0110_1" "")) =
      some (.ok (.lrcEnc [b "1011", b "0110", b "1000"] (b "0101") (b "1011011010000101"))
        [.tCol 0 2 false, .tCol 1 1 true, .tCol 2 2 false, .tCol 3 1 true]) := by decide
theorem test_lrc_enc_one_row :
    answer (step (issued 0x00040004#32 "_1_" "")) =
      some (.ok (.lrcEnc [b "1000"] (b "1000") (b "10001000"))
        [.tCol 0 1 true, .tCol 1 0 false, .tCol 2 0 false, .tCol 3 0 false]) := by decide
theorem test_lrc_ver_short_frame :
    answer (step (issued 0x00040005#32 "10111000001" "")) =
      some (.ok (.lrcVer [b "1011", b "1000", b "0010"] false)
        [.tColv 0 2 true, .tColv 1 0 true, .tColv 2 2 true, .tColv 3 1 false]) := by decide
theorem test_lrc_ver_whitespace :
    answer (step (issued 0x00040005#32 "1011_1000_0011" "")) =
      some (.ok (.lrcVer [b "1011", b "1000", b "0011"] true)
        [.tColv 0 2 true, .tColv 1 0 true, .tColv 2 2 true, .tColv 3 2 true]) := by decide
theorem test_crc_enc_scenario4 :
    answer (step (issued 0x00000006#32 "1101011011" "10011")) =
      some (.ok (.crcEnc (b "11010110110000") (b "1110") (b "11010110111110"))
        [.tXor 0 (b "11010") (b "01001"), .tXor 1 (b "10011") (b "00000"),
         .tXor 6 (b "10110") (b "00101"), .tXor 8 (b "10100") (b "00111")]) := by decide
theorem test_crc_enc_ignores_n_and_pk :
    answer (step (issued 0x04D2000E#32 "1" "10011")) =
      some (.ok (.crcEnc (b "10000") (b "0011") (b "10011"))
        [.tXor 0 (b "10000") (b "00011")]) := by decide
theorem test_crc_ver_flip :
    answer (step (issued 0x00000007#32 "1111001" "1011")) =
      some (.ok (.crcVer (b "110") false)
        [.tXor 0 (b "1111") (b "0100"), .tXor 1 (b "1000") (b "0011"),
         .tXor 3 (b "1101") (b "0110")]) := by decide
theorem test_crc_ver_length_k_minus_1 :
    answer (step (issued 0x00000007#32 "010" "1011")) = some (.ok (.crcVer (b "010") false) []) := by
  decide
theorem test_crc_ver_short_frame_refused :
    refusal (step (issued 0x00000007#32 "01" "1011")) = some .crcShortFrame := by decide

/-! ### Error statuses (95_test_vectors.md Part 3) -/

theorem test_illegal_wins :
    answer (step (issued 0x00000056#32 "x" "")) = some (.error .illegalCommand) := by decide
theorem test_invalid_input_wins_over_config :
    answer (step (issued 0x00000000#32 "10x1" "")) = some (.error .invalidInput) ∧
      answer (step (issued 0x00000006#32 "101" "x")) = some (.error .invalidInput) := by decide
theorem test_invalid_config :
    answer (step (issued 0xFFFF0000#32 "1011" "")) = some (.error .invalidConfig) ∧
      answer (step (issued 0x00000001#32 "101" "")) = some (.error .invalidConfig) ∧
      answer (step (issued 0x00000006#32 "101" "")) = some (.error .invalidConfig) ∧
      answer (step (issued 0x00000006#32 "101" "011")) = some (.error .invalidConfig) := by decide
theorem test_lrc_empty_after_strip :
    answer (step (issued 0x00040004#32 "___" "")) = some (.error .invalidInput) := by decide

/-! ### Placing a word, and the HOST's steps -/

theorem test_placed_word :
    (State.reset.withFetchWord 32 0x00080000).busy = true ∧
      decodeTableWord 32 0x00080000 = some (.parEnc .even 8) ∧
      answer (step (State.reset.withFetchWord 32 0x00080000)) = some (.error .invalidInput) := by decide
theorem test_placed_command_with_buffers :
    (State.reset.withFetchWord 128 (0x00080000 + 7 * 2 ^ 32 + 0b01000001010001 * 2 ^ 96)).command =
      cmd 0x00080000#32 "1011001" "" := by decide

/-- A state with moves for the HOST to make. -/
def hosted (s : State) (moves : List HostMove) : State := { s with host := { moves, received := [] } }

theorem test_issue_then_busy :
    (after (step (hosted State.reset [.issue (cmd 0x00080000#32 "1011001" "")]))).map
      (fun t => (t.busy, t.resp, t.plen, t.host.moves)) = some (true, none, 7#32, []) := by decide
theorem test_reset_abandons :
    (after (step (hosted (issued 0x00080000#32 "1011001" "") [.reset, .read]))).map
      (fun t => (t.busy, t.resp, t.host.moves)) = some (false, none, [.read]) := by decide
theorem test_read_absent_refused :
    refusal (step (hosted State.reset [.read])) = some .readAbsent := by decide

/-! ### Witnesses: the hypotheses of the obligations can be met -/

/-- A command held and executing, with the HOST about to read. -/
def busyState : State := hosted (issued 0x00040008#32 "101100111" "") [.read]

/-- An idle state that holds the response of its command. -/
def answeredState : State :=
  (issued 0x00000000#32 "1" "").raise .invalidConfig

theorem wit_DecodeOfEncode : (Instr.parVer .odd (-32768)).WellFormed ∧
    (Instr.crcEnc .odd 32767).WellFormed := by decide
theorem wit_EncodeOfDecode : decode 0xFFFF000F#32 = .ok (.crcVer .odd (-1)) := by decide
theorem wit_Assembled :
    (Line.crcVer (sy "10_x") (sy "11")).instr.WellFormed ∧
      (Line.crcVer (sy "10_x") (sy "11")).payload.length < 2 ^ 32 ∧
      (Line.crcVer (sy "10_x") (sy "11")).polynomial.length < 2 ^ 32 := by decide
theorem wit_StepRunsDecoded :
    busyState.busy = true ∧ resetPending busyState = false ∧
      decode busyState.w0 = .ok (.parEnc .odd 4) := by decide
theorem wit_PlacedWord : decodeTableWord 32 0x0004000C = some (.lrcEnc .odd 4) := by decide
theorem wit_ReservedBits :
    (issued 0x00000010#32 "" "").busy = true ∧ resetPending (issued 0x00000010#32 "" "") = false ∧
      (issued 0x00000010#32 "" "").w0.toNat / 16 % 4096 ≠ 0 ∧
      (issued 0x00008000#32 "" "").w0.toNat / 16 % 4096 ≠ 0 ∧
      (after (exec (.parEnc .even 8) (issued 0#32 "" ""))).isSome = true := by decide
theorem wit_Issue_idle :
    (hosted State.reset [.issue (cmd 1#32 "1" ""), .read]).host.moves =
        [.issue (cmd 1#32 "1" ""), .read] ∧
      (cmd 1#32 "1" "").WellFormed ∧ State.reset.busy = false ∧
      admits State.reset.capacity (cmd 1#32 "1" "") = true := by decide
theorem wit_Issue_busy :
    (after (step (hosted busyState [.issue (cmd 1#32 "1" "")]))).isSome = true ∧
      busyState.busy = true := by decide
theorem wit_Read :
    (hosted answeredState [.read]).busy = false ∧ (hosted answeredState [.read]).host.moves = [.read] ∧
      (hosted answeredState [.read]).resp = some (.error .invalidConfig) ∧
      (hosted State.reset [.read]).busy = false ∧ (hosted State.reset [.read]).resp = none := by decide
theorem wit_ResponseStays :
    (after (step (hosted answeredState []))).isSome = true ∧
      (after (step (hosted answeredState [.issue (cmd 1#32 "1" "")]))).isSome = true ∧
      (after (step (hosted answeredState [.reset]))).isSome = true ∧
      answeredState.busy = false ∧ answeredState.resp.isSome = true := by decide
theorem wit_Reset : (hosted busyState [.reset]).host.moves = [.reset] := by decide
theorem wit_BusyOnlyAfterIssue :
    (after (step (hosted State.reset [.issue (cmd 1#32 "1" "")]))).map State.busy = some true := by decide
theorem wit_StepRefuses :
    refusal (step (issued 0x00000007#32 "01" "1011")) = some .crcShortFrame ∧
      refusal (step (hosted State.reset [.read])) = some .readAbsent ∧
      refusal (step (hosted State.reset [.issue { cmd 0#32 "1" "" with plen := 2#32 }])) =
        some .notACommand := by decide
theorem wit_Complete :
    busyState.busy = true ∧ resetPending busyState = false ∧
      (respond busyState.command).isSome = true ∧
      respond (issued 0x00000007#32 "01" "1011").command = none := by decide
theorem wit_StepKeepsInvariant : Inv State.reset ∧ Inv busyState ∧ (after (step busyState)).isSome = true :=
  ⟨⟨rfl, by decide, by decide⟩, ⟨by decide, by decide, by intro r h; cases h⟩, by decide⟩
theorem wit_Unspecified :
    Indistinguishable State.reset { State.reset with w0 := 5#32, plen := 9#32, inBuf := [.sx] } ∧
      Indistinguishable busyState { busyState with work := { busyState.work with acc := 7 } } :=
  ⟨⟨rfl, rfl, rfl, rfl, by decide⟩, ⟨rfl, rfl, rfl, rfl, fun _ => rfl⟩⟩
theorem wit_Session :
    (hosted State.reset (session [cmd 0x00080000#32 "1011001" "", cmd 0x10#32 "" ""])).host.moves =
        session [cmd 0x00080000#32 "1011001" "", cmd 0x10#32 "" ""] ∧
      ∀ c ∈ [cmd 0x00080000#32 "1011001" "", cmd 0x10#32 "" ""],
        c.WellFormed ∧ admits State.reset.capacity c = true ∧ respond c ≠ none := by decide
theorem wit_Instances :
    ∃ k j, (System.mk [busyState, State.reset]).stepAt 0 = .next k ∧ (1 : Nat) ≠ 0 ∧
      (System.mk [busyState, State.reset]).stepAt 1 = .next j :=
  ⟨_, _, rfl, by decide, rfl⟩
theorem wit_Phases_Frames_Sizes_Bounds :
    (answer (exec (.parEnc .odd 4) busyState)).bind Response.trace ≠ none ∧
      (answer (exec (.csumVer .even 4) busyState)).bind Response.trace ≠ none ∧
      (answer (exec (.lrcEnc .even 4) busyState)).bind Response.trace ≠ none ∧
      (answer (exec (.crcEnc .even 4) (issued 6#32 "101" "11"))).bind Response.trace ≠ none ∧
      (Instr.parEnc .odd 4).WellFormed := by decide
theorem wit_UnusedFields : (Instr.lrcVer .odd 3).op.isCrc = false := by decide
theorem wit_InvalidConfig :
    payloadOf .csumEnc (issued 2#32 "1011" "") ≠ [] ∧ .sx ∉ (issued 2#32 "1011" "").raw ∧
      .sw ∉ (issued 2#32 "1011" "").raw ∧ payloadOf .crcVer (issued 7#32 "101" "1") ≠ [] ∧
      .sx ∉ (issued 7#32 "101" "1").raw ∧ .sw ∉ (issued 7#32 "101" "1").raw ∧
      .sw ∉ (issued 7#32 "101" "1").g0 ∧ .sx ∉ (issued 7#32 "101" "1").g0 := by decide
theorem wit_ShortFrame :
    (issued 7#32 "1" "100").raw = binary (b "1") ∧ (issued 7#32 "1" "100").g0 = binary (b "100") ∧
      b "1" ≠ [] ∧ 2 ≤ (b "100").length ∧ (b "100").head? = some true ∧
      (b "1").length < (b "100").length - 1 ∧
      refusal (exec (.crcVer .even 0) (issued 7#32 "1" "100")) = some .crcShortFrame := by decide

/-- A payload of one bit, the shortest, and block size 1, the least. -/
theorem wit_sized_results :
    (issued 0x00010000#32 "1" "").raw = binary (b "1") ∧ strip (issued 0x00010000#32 "1" "").raw =
      binary (b "1") ∧ b "1" ≠ [] ∧ (1 : Int) ≤ 1 ∧
      strip (issued 0x00040004#32 "1_01" "").raw = binary (b "101") := by decide

/-- The shortest polynomial, and a frame of exactly k - 1 bits. -/
theorem wit_crc_results :
    (issued 6#32 "1" "10").raw = binary (b "1") ∧ (issued 6#32 "1" "10").g0 = binary (b "10") ∧
      b "1" ≠ [] ∧ 2 ≤ (b "10").length ∧ (b "10").head? = some true ∧
      (b "10").length - 1 ≤ (b "1").length ∧ true ∈ (b "11").tail ∧
      (issued 6#32 "1" "11").g0 = binary (b "11") := by decide
/-- R174: after issue and complete, with only a read and a reset to come, the run is at its end; with a
command left to issue it is not. -/
theorem test_final_with_read_and_reset_left :
    ((after (step (hosted busyState [.read, .reset]))).map fun t =>
        (t.busy, t.resp.isSome, noIssueLeft t.host.moves)) = some (false, true, true) ∧
      noIssueLeft [.read, .issue (cmd 1#32 "1" "")] = false := by decide
theorem wit_RunEnds :
    (hosted busyState [.read, .reset]).busy = true ∧ resetPending (hosted busyState [.read, .reset]) = false ∧
      noIssueLeft (hosted busyState [.read, .reset]).host.moves = true ∧
      respond (hosted busyState [.read, .reset]).command ≠ none ∧
      Final (hosted answeredState [.read]) ∧ Final (hosted answeredState [.reset]) :=
  ⟨by decide, by decide, by decide, by decide, ⟨by decide, by decide, by decide⟩,
    ⟨by decide, by decide, by decide⟩⟩
/-- The least block size at which a checksum frame shows every single flip, and a frame bit to flip. -/
theorem wit_ChecksumFlip :
    (issued 0x00020002#32 "1" "").raw = binary (b "1") ∧ b "1" ≠ [] ∧ (2 : Int) ≤ 2 ∧
      frameOf (.csumEnc .even 2) (issued 0x00020002#32 "1" "") = some (b "1001") ∧ 0 < (b "1001").length ∧
      (issued 0x00020003#32 "0001" "").raw = binary (flipBit (b "1001") 0) := by decide
/-- A polynomial with a '1' after its first bit, and a frame bit to flip. -/
theorem wit_CrcFlip :
    (issued 6#32 "1" "11").raw = binary (b "1") ∧ true ∈ (b "11").tail ∧
      frameOf (.crcEnc .even 0) (issued 6#32 "1" "11") = some (b "11") ∧
      (issued 7#32 "01" "11").raw = binary (flipBit (b "11") 0) := by decide
theorem wit_Numbers : (15 : Nat) < 2 ^ 4 ∧ (2 : Nat) ^ 4 ≤ 16 ∧ (1 : Nat) ≤ 4 := by decide
theorem wit_Slice_Split : b "10111" ≠ [] ∧ (1 : Nat) ≤ 4 ∧ 0 + 1 < ceilDiv (b "10111").length 4 ∧
    5 ∣ (b "10111").length := by decide
theorem wit_Parity : countOnes (b "101") % 2 = 0 ∧ countOnes (b "100") % 2 = 1 := by decide
theorem wit_AddWrap :
    (1 : Nat) ≤ 4 ∧ (15 : Nat) < 2 ^ 4 ∧ 8 + 7 = 2 ^ 4 - 1 ∧ 8 + 8 = 2 ^ 4 ∧ 15 = 2 ^ 4 - 1 ∧
      (15 : Nat) ≤ 2 ^ 4 - 1 ∧ addCarry 15 15 4 = 1 ∧ addCarry 8 7 4 = 0 := by decide
theorem wit_Fold :
    (1 : Nat) ≤ 2 ∧ [b "11", b "01"] ≠ [] ∧ (∀ x ∈ [b "11", b "01"], x.length = 2) ∧
      (∃ x ∈ [b "11", b "01"], val x ≠ 0) ∧ (∀ x ∈ [b "00"], val x = 0) ∧
      0 + 1 < [b "11", b "01"].length ∧ (∀ x ∈ [b "1", b "0"], x.length = 1) := by decide
theorem wit_OnesComplement : (0 : Nat) ≤ 2 ^ 4 - 1 ∧ (15 : Nat) ≤ 2 ^ 4 - 1 := by decide
theorem wit_Lrc : (∀ r ∈ [b "101", b "110"], r.length = 3) ∧ (2 : Nat) < 3 ∧ (b "101").length = 3 := by
  decide
theorem wit_Divide : 2 ≤ (b "10").length ∧ (b "10").head? = some true ∧
    (b "10").length - 1 ≤ (b "1").length := by decide

/-- A valid frame, a burst shorter than k - j, and the missed burst h, for g = "110" (j = 1). -/
theorem wit_Burst :
    (b "11").head? = some true ∧ (b "11").getLast? = some true ∧ 2 ≤ (b "11").length + 1 ∧
      (issued 7#32 "1100" "110").raw = binary (b "1100") ∧
      (issued 7#32 "1100" "110").g0 = binary (b "11" ++ zeros 1) ∧
      verdictOf (.crcVer .even 0) (issued 7#32 "1100" "110") = some true ∧
      (b "1100").length = 1 + (b "1").length + 2 ∧ (b "1").head? = some true ∧
      (b "1").getLast? = some true ∧ (b "1").length ≤ ((b "11").length + 1) - 1 - 1 ∧
      (issued 7#32 "1000" "110").raw = binary (xorBits (b "1100") (zeros 1 ++ b "1" ++ zeros 2)) ∧
      (issued 7#32 "1010" "110").raw = binary (xorBits (b "1100") (zeros 1 ++ b "11" ++ zeros 1)) ∧
      (b "1100").length = 1 + (b "11").length + 1 ∧ (1 : Nat) ≤ 1 := by decide
theorem wit_ParityFlips :
    (issued 1#32 "11" "").raw = binary (b "11") ∧ (issued 1#32 "00" "").raw = binary (b "00") ∧
      (b "00").length = (b "11").length ∧
      verdictOf (.parVer .even 1) (issued 1#32 "11" "") = some true := by decide
theorem wit_LrcFlips :
    strip (issued 5#32 "1_1" "").raw = binary (b "11") ∧ strip (issued 5#32 "00" "").raw = binary (b "00") ∧
      verdictOf (.lrcVer .even 1) (issued 5#32 "1_1" "") = some true := by decide
theorem wit_Undetected :
    (issued 2#32 "0" "").raw = binary [false] ∧ (issued 3#32 "11" "").raw = binary [true, true] ∧
      (issued 6#32 "1" "10").raw = binary [true] ∧ (issued 7#32 "00" "10").raw = binary [false, false] ∧
      (issued 6#32 "1" "10").g0 = binary [true, false] := by decide

end Sys2Proof.Tests
end

section
/-!
PROOFS. The rendering of numbers as bit strings: `bin`, `bitlen` and `fmtBin` (00_scope.md R9,
40_shared_primitives.md R81).
-/

namespace Sys2Proof.Machine

/-! ### bin -/

/-- `bin` peels off the least significant bit at the right end, as `val_append_single` does for `val`. -/
theorem bin_succ (v w : Nat) : bin v (w + 1) = bin (v / 2) w ++ [v.testBit 0] := by
  have hbits : ∀ i ∈ List.range w, v.testBit (w - i) = (v / 2).testBit (w - 1 - i) := by
    intro i hi
    have hi : i < w := List.mem_range.mp hi
    rw [Nat.testBit_div_two, show w - 1 - i + 1 = w - i by omega]
  simpa [bin, List.range_succ] using hbits

/-- `bin` keeps the low w bits, whatever the number. -/
theorem val_bin_mod (v w : Nat) : val (bin v w) = v % 2 ^ w := by
  induction w generalizing v with
  | zero => simp [bin, val, Nat.mod_one]
  | succ w ih =>
    rw [bin_succ, val_append_single, ih, Nat.toNat_testBit, Nat.pow_succ', Nat.mod_mul]
    simp [Nat.add_comm]

theorem val_bin {v w : Nat} (h : v < 2 ^ w) : val (bin v w) = v := by
  rw [val_bin_mod, Nat.mod_eq_of_lt h]

@[simp] theorem bin_val (s : Bits) : bin (val s) s.length = s := by
  induction s using List.reverseRecOn with
  | nil => rfl
  | append_singleton s b ih =>
    have hhalf : val (s ++ [b]) / 2 = val s := by
      have hb := b.toNat_lt
      rw [val_append_single]; omega
    have hlow : (val (s ++ [b])).testBit 0 = b := by
      rw [val_append_single, Nat.testBit_zero, Nat.mul_add_mod]
      cases b <;> rfl
    rw [List.length_append, List.length_singleton, bin_succ, hhalf, hlow, ih]

/-! ### bitlen and fmtBin -/

/-- `bitlen v` is the least j with `v < 2 ^ j` (40_shared_primitives.md R81). -/
theorem bitlen_le_iff (v j : Nat) : bitlen v ≤ j ↔ v < 2 ^ j := by
  unfold bitlen
  split
  next h => simp [h]
  next h => rw [Nat.succ_le_iff, Nat.log2_lt h]

theorem lt_two_pow_bitlen (v : Nat) : v < 2 ^ bitlen v := (bitlen_le_iff v _).mp le_rfl

theorem fmtBin_of_lt {v width : Nat} (h : v < 2 ^ width) : fmtBin v width = bin v width := if_pos h

theorem fmtBin_of_le {v width : Nat} (h : 2 ^ width ≤ v) : fmtBin v width = bin v (bitlen v) :=
  if_neg h.not_gt

/-- Nothing is truncated: `fmtBin` spells its number at every width. -/
theorem val_fmtBin (v width : Nat) : val (fmtBin v width) = v := by
  rcases lt_or_ge v (2 ^ width) with h | h
  · rw [fmtBin_of_lt h, val_bin h]
  · rw [fmtBin_of_le h, val_bin (lt_two_pow_bitlen v)]

/-- Settles O36: `val` and `bin` are inverse by induction on the length, the last bit split off, and
`fmtBin` falls back to the length `bitlen`, which is the least that holds the number. -/
theorem numbersAreRenderedWithoutLoss : Obligations.NumbersAreRenderedWithoutLoss := by
  refine ⟨fun v w h => ⟨bin_length v w, val_bin h⟩, fun s => ⟨val_lt s, bin_val s⟩,
    fun v width _ => ⟨val_fmtBin v width, fun h => ?fits, fun h => ?tooLong⟩⟩
  case fits => rw [fmtBin_of_lt h, bin_length]
  case tooLong =>
    have hlonger : width < bitlen v := by
      rw [← not_le, bitlen_le_iff]
      exact h.not_gt
    rw [fmtBin_of_le h, bin_length]
    exact ⟨hlonger, lt_two_pow_bitlen v, fun j => (bitlen_le_iff v j).mpr⟩

end Sys2Proof.Machine
end

section
/-!
PROOFS. The steps of the machine (10_state.md R29 to R34): one rule per kind of step, what a step that goes
on can lead to, and that no step reads what the HOST has not written.
-/

namespace Sys2Proof.Machine

/-! ### One rule per kind of step -/

/-- A reset goes first, busy or not. -/
theorem step_of_reset {s : State} {rest : List HostMove} (hm : s.host.moves = .reset :: rest) :
    step s = .next (resetInstance rest s) := by
  simp only [step, advance, hm]

theorem step_of_waiting {s : State} (hb : s.busy = false) (hm : s.host.moves = []) :
    step s = .next s := by
  simp only [step, advance, hb, hm]

theorem step_of_issue {s : State} {c : Command} {rest : List HostMove} (hb : s.busy = false)
    (hm : s.host.moves = .issue c :: rest) : step s = issue c rest s := by
  simp only [step, advance, hb, hm]

theorem step_of_read {s : State} {rest : List HostMove} (hb : s.busy = false)
    (hm : s.host.moves = .read :: rest) : step s = readResponse rest s := by
  simp only [step, advance, hb, hm]

theorem resetPending_of_issue {s : State} {c : Command} {rest : List HostMove}
    (hm : s.host.moves = .issue c :: rest) : resetPending s = false := by
  rw [resetPending, hm]
  rfl

theorem issue_of_wellFormed {c : Command} (hc : c.WellFormed) (rest : List HostMove) (s : State) :
    issue c rest s =
      if admits s.capacity c then .next ((loadCommand c s).hostNext rest)
      else .refused .outsideCapacity :=
  if_neg (not_not.mpr hc)

theorem readResponse_of_present {s : State} {r : Response} (hr : s.resp = some r)
    (rest : List HostMove) :
    readResponse rest s =
      .next { s with host := { moves := rest, received := s.host.received ++ [r] } } := by
  simp only [readResponse, hr]

theorem readResponse_of_absent {s : State} (hr : s.resp = none) (rest : List HostMove) :
    readResponse rest s = .refused .readAbsent := by
  simp only [readResponse, hr]

theorem complete_of_decode {s : State} {i : Instr} (hd : decode s.w0 = .ok i) :
    complete s = exec i s := by
  simp only [complete, hd]

/-! ### complete, by the response of the command -/

/-- `complete` writes the response the command has, and only working registers besides (10_state.md R30). -/
theorem complete_of_respond {s : State} {r : Response} (h : respond s.command = some r) :
    ∃ w, complete s = .next { s with busy := false, resp := some r, work := w } := by
  rcases complete_respond s with ⟨k, hr, hc⟩ | ⟨hr, -⟩ | ⟨res, tr, w, hr, hc⟩
  · obtain rfl : .error k = r := Option.some.inj (hr.symm.trans h)
    exact ⟨s.work, hc⟩
  · cases hr.symm.trans h
  · obtain rfl : .ok res tr = r := Option.some.inj (hr.symm.trans h)
    exact ⟨w, hc⟩

/-- A command with no specified response does not complete (60_exceptions.md R151). -/
theorem complete_of_respond_none {s : State} (h : respond s.command = none) :
    complete s = .refused .crcShortFrame := by
  rcases complete_respond s with ⟨k, hr, -⟩ | ⟨-, hc⟩ | ⟨res, tr, w, hr, -⟩
  · cases hr.symm.trans h
  · exact hc
  · cases hr.symm.trans h

theorem complete_next {s t : State} (h : complete s = .next t) :
    ∃ r w, respond s.command = some r ∧ t = { s with busy := false, resp := some r, work := w } := by
  cases hr : respond s.command with
  | none =>
    rw [complete_of_respond_none hr] at h
    cases h
  | some r =>
    obtain ⟨w, hc⟩ := complete_of_respond hr
    rw [hc] at h
    cases h
    exact ⟨r, w, rfl, rfl⟩

/-! ### The next state of a step -/

/-- The five ways a step can go on, each with the whole of the next state. -/
theorem step_next {s t : State} (h : step s = .next t) :
    (∃ rest, s.host.moves = .reset :: rest ∧ t = resetInstance rest s) ∨
    (s.busy = true ∧ ∃ r w, respond s.command = some r ∧
      t = { s with busy := false, resp := some r, work := w }) ∨
    (s.busy = false ∧ s.host.moves = [] ∧ t = s) ∨
    (∃ c rest, s.busy = false ∧ s.host.moves = .issue c :: rest ∧ c.WellFormed ∧
      admits s.capacity c = true ∧ t = (loadCommand c s).hostNext rest) ∨
    (∃ r rest, s.busy = false ∧ s.host.moves = .read :: rest ∧ s.resp = some r ∧
      t = { s with host := { moves := rest, received := s.host.received ++ [r] } }) := by
  rcases step_cases s with ⟨rest, hm, hs⟩ | ⟨hb, -, hs⟩ | ⟨hb, hm, hs⟩ | ⟨c, rest, hb, hm, hs⟩ |
    ⟨rest, hb, hm, hs⟩ <;> rw [hs] at h
  case inl => cases h; exact .inl ⟨rest, hm, rfl⟩
  case inr.inl => exact .inr (.inl ⟨hb, complete_next h⟩)
  case inr.inr.inl => cases h; exact .inr (.inr (.inl ⟨hb, hm, rfl⟩))
  case inr.inr.inr.inl =>
    rcases issue_cases c rest s with ⟨-, hi⟩ | ⟨hw, ha, hi⟩ | ⟨-, -, hi⟩ <;> rw [hi] at h <;> cases h
    exact .inr (.inr (.inr (.inl ⟨c, rest, hb, hm, hw, ha, rfl⟩)))
  case inr.inr.inr.inr =>
    rcases readResponse_cases rest s with ⟨r, hr, hi⟩ | ⟨-, hi⟩ <;> rw [hi] at h <;> cases h
    exact .inr (.inr (.inr (.inr ⟨r, rest, hb, hm, hr, rfl⟩)))

/-! ### Noninterference -/

/-- Two outcomes the HOST and the coming steps cannot tell apart. -/
inductive OutcomesAlike :
    Host.Outcome State Fault Refusal → Host.Outcome State Fault Refusal → Prop
  | next {t t' : State} (h : Indistinguishable t t') : OutcomesAlike (.next t) (.next t')
  | refused (r : Refusal) : OutcomesAlike (.refused r) (.refused r)

section Indistinguishable

variable {s s' : State} (h : Indistinguishable s s')
include h

/-- The HOST reads the same of both (10_state.md R35). -/
theorem Indistinguishable.hostView_eq : hostView s = hostView s' := by
  simp only [hostView, h.busy, h.resp]

theorem Indistinguishable.resetInstance (rest : List HostMove) :
    Indistinguishable (resetInstance rest s) (resetInstance rest s') where
  busy := rfl
  resp := rfl
  capacity := h.capacity
  host := by simp only [resetInstance_host, h.host]
  command := nofun

/-- A busy block reads its command alone, which both states hold: no working register decides what
`complete` does. -/
theorem Indistinguishable.complete (hb : s.busy = true) :
    OutcomesAlike (complete s) (complete s') := by
  have hcmd : s.command = s'.command := h.command hb
  cases hr : respond s.command with
  | none =>
    rw [complete_of_respond_none hr, complete_of_respond_none (hcmd ▸ hr)]
    exact .refused _
  | some r =>
    obtain ⟨w, hc⟩ := complete_of_respond hr
    obtain ⟨w', hc'⟩ := complete_of_respond (hcmd ▸ hr)
    rw [hc, hc']
    exact .next ⟨rfl, rfl, h.capacity, h.host, nofun⟩

/-- `issue` writes all five parts of the command, so it does not matter what the registers held. -/
theorem Indistinguishable.issue (c : Command) (rest : List HostMove) :
    OutcomesAlike (issue c rest s) (issue c rest s') := by
  by_cases hw : c.WellFormed
  · rw [issue_of_wellFormed hw, issue_of_wellFormed hw, ← h.capacity]
    split
    · exact .next ⟨rfl, rfl, h.capacity, by simp [h.host], fun _ => rfl⟩
    · exact .refused _
  · rw [Machine.issue, Machine.issue, if_pos hw, if_pos hw]
    exact .refused _

theorem Indistinguishable.readResponse (rest : List HostMove) :
    OutcomesAlike (readResponse rest s) (readResponse rest s') := by
  cases hr : s.resp with
  | none =>
    rw [readResponse_of_absent hr, readResponse_of_absent (h.resp ▸ hr)]
    exact .refused _
  | some r =>
    rw [readResponse_of_present hr, readResponse_of_present (h.resp ▸ hr)]
    exact .next ⟨h.busy, h.resp, h.capacity, by simp only [h.host], h.command⟩

theorem Indistinguishable.step : OutcomesAlike (step s) (step s') := by
  have moves' {m} (hm : s.host.moves = m) : s'.host.moves = m := h.host ▸ hm
  have busy' {b} (hb : s.busy = b) : s'.busy = b := h.busy ▸ hb
  rcases step_cases s with ⟨rest, hm, hs⟩ | ⟨hb, hr, hs⟩ | ⟨hb, hm, hs⟩ | ⟨c, rest, hb, hm, hs⟩ |
    ⟨rest, hb, hm, hs⟩ <;> rw [hs]
  · rw [step_of_reset (moves' hm)]
    exact .next (h.resetInstance rest)
  · have hr' : resetPending s' = false := by rwa [resetPending, ← h.host]
    rw [step_of_busy (busy' hb) hr']
    exact h.complete hb
  · rw [step_of_waiting (busy' hb) (moves' hm)]
    exact .next h
  · rw [step_of_issue (busy' hb) (moves' hm)]
    exact h.issue c rest
  · rw [step_of_read (busy' hb) (moves' hm)]
    exact h.readResponse rest

end Indistinguishable

/-- Settles O17: each kind of step keeps two states indistinguishable, since `complete` reads only the
command of a busy block, and `issue` writes every command register before it is read. -/
theorem unspecifiedStateIsNeverRead : Obligations.UnspecifiedStateIsNeverRead := by
  intro s s' h
  have halike := h.step
  generalize step s = o, step s' = o' at halike
  cases halike with
  | next h => exact ⟨h, h.hostView_eq⟩
  | refused r => rfl

/-! ### The obligations about single steps -/

/-- Settles O14, by what `respond` says of the command held. -/
theorem completeGivesTheCommandsResponse : Obligations.CompleteGivesTheCommandsResponse := by
  intro s hb hr
  rw [step_of_busy hb hr]
  exact ⟨fun r => complete_of_respond, complete_of_respond_none⟩

/-- Settles O5: the block completes, and `complete` runs what the word decodes to. -/
theorem stepRunsDecodedInstruction : Obligations.StepRunsDecodedInstruction := by
  intro s i hb hr hd
  rw [step_of_busy hb hr, complete_of_decode hd]

/-- Settles O8: an idle block takes the command; a busy one completes first, which leaves the command and the
HOST as they are. -/
theorem issueTakesCommandAtOnce : Obligations.IssueTakesCommandAtOnce := by
  intro s c rest hm hc
  refine ⟨fun hb => ?idle, fun hb t ht => ?busy⟩
  case idle => rw [step_of_issue hb hm, issue_of_wellFormed hc]; rfl
  case busy =>
    rw [step_of_busy hb (resetPending_of_issue hm)] at ht
    obtain ⟨r, w, -, rfl⟩ := complete_next ht
    exact ⟨rfl, rfl, rfl⟩

/-- Settles O9, by whether a response is present. -/
theorem readReturnsResponseAndChangesNothing : Obligations.ReadReturnsResponseAndChangesNothing := by
  intro s rest hb hm
  rw [step_of_read hb hm]
  exact ⟨fun r hr => readResponse_of_present hr rest, fun hr => readResponse_of_absent hr rest⟩

/-- Settles O10: of the steps an idle block can take, only `issue` and a reset clear the response. -/
theorem responseStaysUntilIssueOrReset : Obligations.ResponseStaysUntilIssueOrReset := by
  intro s t r hb hr ht
  rcases step_next ht with ⟨rest, hm, rfl⟩ | ⟨hbusy, -⟩ | ⟨-, -, rfl⟩ | ⟨c, rest, -, hm, -, -, rfl⟩ |
    ⟨_, _, -, -, -, rfl⟩
  · exact .inr (.inr ⟨rest, hm, rfl, rfl⟩)
  · rw [hb] at hbusy
    cases hbusy
  · exact .inl hr
  · exact .inr (.inl ⟨c, rest, hm, rfl, rfl⟩)
  · exact .inl hr

/-- Settles O12: a reset and `complete` clear BUSY, waiting and `read` need it clear and leave it so. -/
theorem busyOnlyAfterIssue : Obligations.BusyOnlyAfterIssue := by
  intro s t ht hbusy
  rcases step_next ht with ⟨_, -, rfl⟩ | ⟨-, _, _, -, rfl⟩ | ⟨hb, -, rfl⟩ |
    ⟨c, rest, hb, hm, -, -, rfl⟩ | ⟨_, _, hb, -, -, rfl⟩
  · cases hbusy
  · cases hbusy
  · cases hb.symm.trans hbusy
  · exact ⟨hb, rfl, c, rest, hm, rfl⟩
  · cases hb.symm.trans hbusy

end Sys2Proof.Machine
end

section
/-!
PROOFS. The phases of the operations (10_state.md R25 to R28): one unit of work at a time, each loop leaves
in the working registers and in the trace what the one-step meaning does.
-/

namespace Sys2Proof.Machine

/-! ### Reaching a progress by units of work -/

/-- Some number of units of work leads from `x` to `y`. -/
def Job.Reaches (j : Job) (x y : Progress) : Prop := ∃ k, phaseRun j k x = y

theorem phaseRun_add (j : Job) (a b : Nat) (x : Progress) :
    phaseRun j (a + b) x = phaseRun j b (phaseRun j a x) := by
  induction a generalizing x with
  | zero => rw [Nat.zero_add]; rfl
  | succ a ih => rw [Nat.succ_add]; exact ih (phaseStep j x)

section Reaches

variable {j : Job} {x y z : Progress}

theorem Job.Reaches.refl : j.Reaches x x := ⟨0, rfl⟩

theorem Job.Reaches.of_step (h : phaseStep j x = y) : j.Reaches x y := ⟨1, h⟩

theorem Job.Reaches.trans : j.Reaches x y → j.Reaches y z → j.Reaches x z := by
  rintro ⟨a, rfl⟩ ⟨b, rfl⟩
  exact ⟨a + b, phaseRun_add j a b x⟩

/-- One unit of work first. -/
theorem Job.Reaches.head (h : phaseStep j x = y) (hyz : j.Reaches y z) : j.Reaches x z :=
  (Job.Reaches.of_step h).trans hyz

/-- One unit of work last. -/
theorem Job.Reaches.tail (hxy : j.Reaches x y) (h : phaseStep j y = z) : j.Reaches x z :=
  hxy.trans (.of_step h)

end Reaches

/-! ### The loops over blocks -/

theorem getElem?_of_drop_eq {α : Type} {l bs : List α} {i : Nat} (h : l.drop i = bs) :
    l[i]? = bs.head? := by
  rw [← h, List.head?_drop]

theorem drop_succ_of_drop_eq_cons {α : Type} {l bs : List α} {i : Nat} {b : α}
    (h : l.drop i = b :: bs) : l.drop (i + 1) = bs := by
  rw [← List.tail_drop, h, List.tail_cons]

/-- The parity loop over the blocks still to come: one record each, in block order (10_state.md R28). -/
theorem reaches_after_blocks (j : Job) (bs : List Bits) (w : Work) (tr : List TraceRec)
    (hphase : w.phase = .blocks) (hblk : w.blk.drop w.bidx = bs) :
    j.Reaches ⟨w, tr⟩
      ⟨{ w with phase := .assemble, bidx := w.bidx + bs.length },
        tr ++ (bs.zipIdx w.bidx).map fun x => j.blockRecord x.2 x.1⟩ := by
  induction bs generalizing w tr with
  | nil =>
    refine .of_step ?_
    simp [phaseStep, phaseBlocks, hphase, getElem?_of_drop_eq hblk]
  | cons b bs ih =>
    have hstep : phaseStep j ⟨w, tr⟩ =
        ⟨{ w with bidx := w.bidx + 1 }, tr ++ [j.blockRecord w.bidx b]⟩ := by
      simp [phaseStep, phaseBlocks, hphase, getElem?_of_drop_eq hblk]
    have hrest := ih { w with bidx := w.bidx + 1 } (tr ++ [j.blockRecord w.bidx b]) hphase
      (drop_succ_of_drop_eq_cons hblk)
    simpa [Nat.add_assoc, Nat.add_comm 1] using Job.Reaches.head hstep hrest

theorem reaches_after_all_blocks (j : Job) (w : Work) (hphase : w.phase = .blocks)
    (hbidx : w.bidx = 0) :
    j.Reaches ⟨w, []⟩
      ⟨afterBlocks w.blk w, w.blk.zipIdx.map fun x => j.blockRecord x.2 x.1⟩ := by
  simpa [hbidx, afterBlocks] using
    reaches_after_blocks j w.blk w [] hphase (by rw [hbidx, List.drop_zero])

/-- The checksum loop over the blocks still to come folds them onto ACC (10_state.md R26). -/
theorem reaches_after_additions (j : Job) (bs : List Bits) (w : Work) (tr : List TraceRec)
    (hphase : w.phase = .add) (hblk : w.blk.drop w.bidx = bs) :
    j.Reaches ⟨w, tr⟩
      ⟨{ w with
          phase := if j.instr.op.isVerify then .assemble else .complement
          bidx := w.bidx + bs.length
          acc := (foldFrom j.n w.acc w.bidx bs).1 },
        tr ++ (foldFrom j.n w.acc w.bidx bs).2⟩ := by
  induction bs generalizing w tr with
  | nil =>
    refine .of_step ?_
    simp [phaseStep, phaseAdd, hphase, getElem?_of_drop_eq hblk, foldFrom]
  | cons b bs ih =>
    have hstep : phaseStep j ⟨w, tr⟩ =
        ⟨{ w with acc := addRes w.acc (val b) j.n, bidx := w.bidx + 1 },
          tr ++ [addRecord j.n w.bidx w.acc b]⟩ := by
      simp [phaseStep, phaseAdd, hphase, getElem?_of_drop_eq hblk]
    have hrest := ih { w with acc := addRes w.acc (val b) j.n, bidx := w.bidx + 1 }
      (tr ++ [addRecord j.n w.bidx w.acc b]) hphase (drop_succ_of_drop_eq_cons hblk)
    simpa [foldFrom, Nat.add_assoc, Nat.add_comm 1] using Job.Reaches.head hstep hrest

theorem splitBlocks_ne_nil (p : Bits) (size : Nat) : splitBlocks p size ≠ [] := by
  simp [splitBlocks]

/-- Start and the additions: the sum of `fold`, seeded with the first block (10_state.md R26). -/
theorem reaches_after_fold (j : Job) (w : Work) (hphase : w.phase = .start) (hblk : w.blk ≠ []) :
    j.Reaches ⟨w, []⟩
      ⟨{ w with
          phase := if j.instr.op.isVerify then .assemble else .complement
          bidx := w.blk.length
          acc := (fold w.blk j.n).1 },
        (fold w.blk j.n).2⟩ := by
  obtain ⟨b, bs, hcons⟩ := List.exists_cons_of_ne_nil hblk
  have hstep : phaseStep j ⟨w, []⟩ = ⟨{ w with phase := .add, acc := val b, bidx := 1 }, []⟩ := by
    simp [phaseStep, phaseStart, hphase, hcons]
  have hadds := reaches_after_additions j bs { w with phase := .add, acc := val b, bidx := 1 } [] rfl
    (by rw [hcons]; rfl)
  simpa [hcons, fold_cons, Nat.add_comm 1] using Job.Reaches.head hstep hadds

/-! ### The loop over columns -/

/-- The first `k + 1` columns: one record each, in column order, and the count of the last of them kept
(10_state.md R28). -/
theorem reaches_column (j : Job) (w : Work) (hphase : w.phase = .columns) (hcol : w.col = 0)
    {k : Nat} (hk : k < j.n) :
    j.Reaches ⟨w, []⟩
      ⟨{ w with col := k + 1, colCount := columnCount w.blk k },
        (List.range (k + 1)).map fun c => j.columnRecord w.blk c⟩ := by
  induction k with
  | zero =>
    refine .of_step ?_
    simp [phaseStep, phaseColumns, hphase, hcol, hk]
  | succ k ih =>
    refine (ih (by omega)).tail ?_
    simp [phaseStep, phaseColumns, hphase, hk, List.range_succ]

theorem reaches_after_columns (j : Job) (w : Work) (hphase : w.phase = .columns) (hcol : w.col = 0)
    (hn : 0 < j.n) :
    j.Reaches ⟨w, []⟩
      ⟨{ w with phase := .assemble, col := j.n, colCount := columnCount w.blk (j.n - 1) },
        (List.range j.n).map fun c => j.columnRecord w.blk c⟩ := by
  have hlast := reaches_column j w hphase hcol (k := j.n - 1) (by omega)
  rw [Nat.sub_add_cancel hn] at hlast
  refine hlast.tail ?_
  simp [phaseStep, phaseColumns, hphase]

/-! ### The scan -/

/-- The divider over the `count` positions still to come, then Remainder (10_state.md R27). -/
theorem reaches_after_scan (j : Job) (count : Nat) (w : Work) (tr : List TraceRec)
    (hphase : w.phase = .xorDivide) (hcount : count = w.scr.length + 1 - j.g.length - w.pos) :
    j.Reaches ⟨w, tr⟩
      ⟨{ w with
          phase := .assemble
          scr := (scan j.g count w.pos w.scr).1
          pos := w.pos + count },
        tr ++ (scan j.g count w.pos w.scr).2⟩ := by
  induction count generalizing w tr with
  | zero =>
    have hend : ¬ w.pos + j.g.length ≤ w.scr.length := by omega
    have hstep : phaseStep j ⟨w, tr⟩ = ⟨{ w with phase := .remainder }, tr⟩ := by
      simp [phaseStep, phaseXorDivide, hphase, hend]
    refine .head hstep (.of_step ?_)
    simp [phaseStep, scan]
  | succ count ih =>
    have hfits : w.pos + j.g.length ≤ w.scr.length := by omega
    by_cases hbit : w.scr.getD w.pos false = true
    case pos =>
      have hstep : phaseStep j ⟨w, tr⟩ =
          ⟨{ w with scr := xorAt j.g w.scr w.pos, pos := w.pos + 1 },
            tr ++ [xorRecord j.g w.scr w.pos]⟩ := by
        simp only [phaseStep, phaseXorDivide, hphase, hfits, hbit, if_true]
      have hrest := ih { w with scr := xorAt j.g w.scr w.pos, pos := w.pos + 1 }
        (tr ++ [xorRecord j.g w.scr w.pos]) hphase (by simp only [xorAt_length hfits]; omega)
      simpa only [scan, hbit, if_true, List.append_assoc, List.singleton_append, Nat.add_assoc,
        Nat.add_comm 1] using Job.Reaches.head hstep hrest
    case neg =>
      rw [Bool.not_eq_true] at hbit
      have hstep : phaseStep j ⟨w, tr⟩ = ⟨{ w with pos := w.pos + 1 }, tr⟩ := by
        simp only [phaseStep, phaseXorDivide, hphase, hfits, hbit, Bool.false_eq_true, if_true,
          if_false]
      have hrest := ih { w with pos := w.pos + 1 } tr hphase (by simp only; omega)
      simpa only [scan, hbit, Bool.false_eq_true, if_false, Nat.add_assoc, Nat.add_comm 1] using
        Job.Reaches.head hstep hrest

theorem reaches_after_whole_scan (j : Job) (w : Work) (hphase : w.phase = .xorDivide)
    (hpos : w.pos = 0) :
    j.Reaches ⟨w, []⟩ ⟨afterScan w.scr j.g w, (scanAll w.scr j.g).2⟩ := by
  simpa [hpos, afterScan, scanAll] using
    reaches_after_scan j (scanCount w.scr j.g) w [] hphase (by rw [hpos]; rfl)

/-! ### Whole operations -/

/-- The phases of a job end with the working registers and the trace of the one-step meaning. The block
size is positive for the LRC loop, which leaves the count of its last column. -/
theorem reaches_operate (i : Instr) (p g : Bits) (w : Work)
    (hn : i.op.isCrc = false → 0 < i.blockSize) :
    Job.Reaches ⟨i, p, g⟩ (Job.begin ⟨i, p, g⟩ w)
      ⟨(operate i p g w).work, (operate i p g w).trace⟩ := by
  cases i with
  | parEnc pk n => exact reaches_after_all_blocks _ _ rfl rfl
  | parVer pk n => exact reaches_after_all_blocks _ _ rfl rfl
  | csumEnc pk n => exact (reaches_after_fold _ _ rfl (splitBlocks_ne_nil p n.toNat)).tail rfl
  | csumVer pk n => exact reaches_after_fold _ _ rfl (splitBlocks_ne_nil p n.toNat)
  | lrcEnc pk n => exact reaches_after_columns _ _ rfl rfl (Int.lt_toNat.mpr (hn rfl))
  | lrcVer pk n => exact reaches_after_columns _ _ rfl rfl (Int.lt_toNat.mpr (hn rfl))
  | crcEnc pk n => exact .head rfl (reaches_after_whole_scan _ _ rfl rfl)
  | crcVer pk n => exact reaches_after_whole_scan _ _ rfl rfl

theorem operate_work_phase (i : Instr) (p g : Bits) (w : Work) :
    (operate i p g w).work.phase = .assemble := by
  cases i <;> rfl

/-- The working registers an operation leaves hold all that its result record needs. -/
theorem assemble_operate (i : Instr) (p g : Bits) (w : Work) :
    Job.assemble ⟨i, p, g⟩ (operate i p g w).work = (operate i p g w).result := by
  cases i <;> rfl

/-- Outside CRC the check accepts positive block sizes only (60_exceptions.md R147). -/
theorem blockSize_pos_of_check_ok {op : Op} {n : Int} {raw g0 : List Symbol} {p g : Bits}
    (h : check op n raw g0 = .ok p g) (hcrc : op.isCrc = false) : 0 < n := by
  by_contra hn
  rw [not_lt] at hn
  cases hv : validate raw op.isLrc <;> simp [check, hcrc, hn, hv] at h

/-- Settles O20: an instruction that completes with OK has passed the check, and each loop of its phases
follows the recursion of the one-step meaning. -/
theorem phasesAgreeWithOneStepMeaning : Obligations.PhasesAgreeWithOneStepMeaning := by
  intro i s t r tr ht hresp
  rcases exec_cases i s with ⟨k, -, he⟩ | ⟨-, he⟩ | ⟨p, g, hcheck, he⟩ <;> rw [he] at ht <;> cases ht
  · cases hresp
  · cases hresp
    obtain ⟨k, hk⟩ := reaches_operate i p g s.work (blockSize_pos_of_check_ok hcheck)
    exact ⟨p, g, k, hcheck, hk, operate_work_phase i p g s.work, assemble_operate i p g s.work⟩

end Sys2Proof.Machine
end

section
/-!
PROOFS. What steps and instructions keep and leave alone (20_memory.md R44, R49, R51): the invariant, the
frame of every instruction, and the independence of several instances.
-/

namespace Sys2Proof.Machine

/-! ### The invariant, one rule per kind of step -/

/-- A reset establishes the invariant, whatever the block was doing. -/
theorem inv_resetInstance (rest : List HostMove) (s : State) : Inv (resetInstance rest s) where
  buffers := memory_wf_resetInstance rest s
  busy_absent _ := rfl
  present_answers := nofun

/-- `issue` establishes the invariant as well: the command is well-formed, and there is no response yet. -/
theorem inv_issued {c : Command} (hc : c.WellFormed) (rest : List HostMove) (s : State) :
    Inv ((loadCommand c s).hostNext rest) where
  buffers := memory_wf_loadCommand hc s
  busy_absent _ := rfl
  present_answers := nofun

section Keeps

variable {s : State} (hs : Inv s)
include hs

/-- The response written is the one of the command, which stays in the registers. -/
theorem Inv.completed {r : Response} (hr : respond s.command = some r) (w : Work) :
    Inv { s with busy := false, resp := some r, work := w } where
  buffers := hs.buffers
  busy_absent := nofun
  present_answers := by
    rintro _ ⟨⟩
    exact hr

/-- The invariant does not speak of the HOST. -/
theorem Inv.with_host (h : HostAgent) : Inv { s with host := h } where
  buffers := hs.buffers
  busy_absent := hs.busy_absent
  present_answers := hs.present_answers

/-- Each of the five ways a step can go on keeps the invariant; only `complete` writes a response. -/
theorem Inv.step {t : State} (ht : step s = .next t) : Inv t := by
  rcases step_next ht with ⟨rest, -, rfl⟩ | ⟨-, r, w, hr, rfl⟩ | ⟨-, -, rfl⟩ |
    ⟨c, rest, -, -, hc, -, rfl⟩ | ⟨r, rest, -, -, -, rfl⟩
  case inl => exact inv_resetInstance rest s
  case inr.inl => exact hs.completed hr w
  case inr.inr.inl => exact hs
  case inr.inr.inr.inl => exact inv_issued hc rest s
  case inr.inr.inr.inr => exact hs.with_host _

end Keeps

/-- Settles O16, by the rule of each kind of step. -/
theorem stepKeepsInvariant : Obligations.StepKeepsInvariant := fun _ _ hs ht => hs.step ht

/-! ### The frame of an instruction -/

/-- Settles O21: an instruction that is not refused ends in `raise` or in `finish`, and both write BUSY and
the response only, but for the working registers in `finish`. -/
theorem instructionsWriteOnlyResponseAndWork : Obligations.InstructionsWriteOnlyResponseAndWork := by
  intro i s t ht
  rcases exec_cases i s with ⟨k, -, he⟩ | ⟨-, he⟩ | ⟨p, g, -, he⟩ <;> rw [he] at ht <;> cases ht
  case inl => exact ⟨rfl, rfl, rfl, fun _ => rfl, fun _ => rfl, rfl, rfl, rfl, .inr ⟨k, rfl, rfl⟩⟩
  case inr.inr => exact ⟨rfl, rfl, rfl, fun _ => rfl, fun _ => rfl, rfl, rfl, rfl, .inl ⟨_, _, rfl⟩⟩

/-! ### Several instances -/

theorem System.stepAt_of_absent {sys : System} {k : Nat} (hk : sys.instances[k]? = none) :
    sys.stepAt k = .next sys := by
  simp only [System.stepAt, hk]

theorem System.stepAt_of_step {sys : System} {k : Nat} {s t : State} (hk : sys.instances[k]? = some s)
    (hs : step s = .next t) : sys.stepAt k = .next { instances := sys.instances.set k t } := by
  simp only [System.stepAt, hk, hs]

/-- Everything a step at one place can do when it goes on. -/
theorem System.stepAt_next {sys sysK : System} {k : Nat} (h : sys.stepAt k = .next sysK) :
    (sys.instances[k]? = none ∧ sysK = sys) ∨
    (∃ s t, sys.instances[k]? = some s ∧ step s = .next t ∧
      sysK = { instances := sys.instances.set k t }) := by
  cases hk : sys.instances[k]? with
  | none =>
    rw [System.stepAt_of_absent hk] at h
    cases h
    exact .inl ⟨rfl, rfl⟩
  | some s =>
    simp only [System.stepAt, hk] at h
    cases hs : step s <;> rw [hs] at h <;> cases h
    exact .inr ⟨s, _, rfl, hs, rfl⟩

/-- A step at place `k` reads and writes this place alone: every system that holds the same there takes the
same step. At a place that holds none, nothing is written whatever `t` is. -/
theorem System.stepAt_local {sys sysK : System} {k : Nat} (h : sys.stepAt k = .next sysK) :
    ∃ t, sysK = { instances := sys.instances.set k t } ∧
      ∀ sys' : System, sys'.instances[k]? = sys.instances[k]? →
        sys'.stepAt k = .next { instances := sys'.instances.set k t } := by
  rcases System.stepAt_next h with ⟨hk, rfl⟩ | ⟨s, t, hk, hs, rfl⟩
  case inl =>
    have hset {sys' : System} (habsent : sys'.instances[k]? = none) :
        sys' = { instances := sys'.instances.set k State.reset } := by
      rw [List.set_eq_of_length_le (List.getElem?_eq_none_iff.mp habsent)]
    refine ⟨State.reset, hset hk, fun sys' hsame => ?_⟩
    rw [System.stepAt_of_absent (hsame.trans hk), ← hset (hsame.trans hk)]
  case inr => exact ⟨t, rfl, fun sys' hsame => System.stepAt_of_step (hsame.trans hk) hs⟩

/-- Settles O19: each of the two steps sets its own place, which the other one leaves alone, and settings
of two places commute. -/
theorem instancesDoNotAffectEachOther : Obligations.InstancesDoNotAffectEachOther := by
  intro sys sysK k j hK hne
  obtain ⟨t, rfl, ht⟩ := System.stepAt_local hK
  have hother : (sys.instances.set k t)[j]? = sys.instances[j]? := List.getElem?_set_ne hne.symm
  refine ⟨hother, fun sysJ hJ => ?_⟩
  obtain ⟨u, rfl, hu⟩ := System.stepAt_local hJ
  refine ⟨_, hu _ hother, ?_⟩
  rw [ht _ (List.getElem?_set_ne hne), List.set_comm t u hne.symm]

end Sys2Proof.Machine
end

section
/-!
PROOFS. The command word (30_encoding.md R54, R58, R59): the decoder and the encoder are inverse to each
other on well-formed instructions, the general form of an assembled word (R67), and running a placed one.
-/

namespace Sys2Proof.Machine

/-! ### The decoder -/

/-- A word decodes exactly when its reserved field is zero, and then to what its other fields select. -/
theorem decode_eq_ok_iff {w : Word} {i : Instr} :
    decode w = .ok i ↔
      rsvField w = 0#12 ∧ Instr.ofFields (.ofCode (opField w)) (pkField w) (nField w) = i := by
  unfold decode
  split
  next h => simp [h]
  next h => simp [h]

/-- N is a 16-bit two's complement number (30_encoding.md R54). -/
theorem nField_bounds (w : Word) : -32768 ≤ nField w ∧ nField w ≤ 32767 := by
  have hlow : -2 ^ (16 - 1) ≤ nField w := BitVec.le_toInt _
  have hhigh : nField w < 2 ^ (16 - 1) := BitVec.toInt_lt
  omega

theorem wellFormed_of_decode {w : Word} {i : Instr} (h : decode w = .ok i) : i.WellFormed := by
  obtain ⟨-, rfl⟩ := decode_eq_ok_iff.mp h
  rw [Instr.WellFormed, Laws.ofFields_blockSize]
  exact nField_bounds w

/-! ### Decoding an encoded instruction -/

/-- N survives in its sixteen bits when it fits them. -/
theorem nField_encode {i : Instr} (h : i.WellFormed) : nField (encode i) = i.blockSize := by
  obtain ⟨hlow, hhigh⟩ := h
  rw [encode, Laws.nField_of_word]
  exact BitVec.toInt_ofInt_eq_self (by decide) hlow (by omega)

theorem decode_encode {i : Instr} (h : i.WellFormed) : decode (encode i) = .ok i := by
  obtain ⟨hop, hrsv, hpk⟩ : Laws.EncodeMatchesRow.Statement i := Laws.fields_of_word _ _ _
  refine decode_eq_ok_iff.mpr ⟨hrsv, ?_⟩
  rw [hop, hpk, nField_encode h, Laws.ofCode_code, Laws.ofFields_self]

/-- Settles O2: each field of the word of an instruction reads back what was put into it. -/
theorem decodeOfEncodeIsInstruction : Obligations.DecodeOfEncodeIsInstruction :=
  fun _ => decode_encode

/-! ### Encoding a decoded word -/

/-- PK as the one-bit field W0[3]. -/
theorem ofBool_pkField (w : Word) : BitVec.ofBool (pkField w).bit = w.extractLsb' 3 1 := by
  have hbit : ∀ b, (ParityKind.ofBit b).bit = b := by decide
  ext k hk
  obtain rfl : k = 0 := by omega
  simp [pkField, hbit]

/-- A word is its four fields put together (30_encoding.md R54). -/
theorem fields_append (w : Word) :
    BitVec.ofInt 16 (nField w) ++ rsvField w ++ BitVec.ofBool (pkField w).bit ++ opField w = w := by
  rw [nField, BitVec.ofInt_toInt, ofBool_pkField, rsvField, opField,
    BitVec.extractLsb'_append_extractLsb'_eq_extractLsb' (show 16 = 4 + 12 from rfl),
    BitVec.extractLsb'_append_extractLsb'_eq_extractLsb' (show 4 = 3 + 1 from rfl),
    BitVec.extractLsb'_append_extractLsb'_eq_extractLsb' (show 3 = 0 + 3 from rfl)]
  exact BitVec.extractLsb'_eq_self

theorem encode_of_decode {w : Word} {i : Instr} (h : decode w = .ok i) : encode i = w := by
  obtain ⟨hrsv, rfl⟩ := decode_eq_ok_iff.mp h
  rw [encode, Laws.ofFields_blockSize, Laws.ofFields_kind, Laws.ofFields_op, Laws.code_ofCode, ← hrsv,
    fields_append]

/-- Settles O3: a word with its reserved field zero is made of what its instruction keeps. -/
theorem encodeOfDecodeIsWord : Obligations.EncodeOfDecodeIsWord :=
  fun _ _ h => ⟨encode_of_decode h, wellFormed_of_decode h⟩

/-! ### Assembled words -/

/-- A field put below another one shifts that one up by its width. -/
theorem toNat_append_eq_add {m k : Nat} (x : BitVec m) (y : BitVec k) :
    (x ++ y).toNat = x.toNat * 2 ^ k + y.toNat := by
  rw [BitVec.toNat_append, ← Nat.shiftLeft_add_eq_or_of_lt y.isLt, Nat.shiftLeft_eq]

/-- The general form of a word (30_encoding.md R67). -/
theorem encode_toNat (i : Instr) :
    (encode i).toNat =
      (i.blockSize % 2 ^ 16).toNat * 2 ^ 16 + i.kind.bit.toNat * 8 + i.op.code.toNat := by
  have hword : (encode i).toNat =
      (((BitVec.ofInt 16 i.blockSize).toNat * 2 ^ 12 + 0) * 2 ^ 1 +
        (BitVec.ofBool i.kind.bit).toNat) * 2 ^ 3 + i.op.code.toNat := by
    rw [encode, toNat_append_eq_add, toNat_append_eq_add, toNat_append_eq_add]
    rfl
  rw [hword, BitVec.toNat_ofInt, BitVec.toNat_ofBool]
  push_cast
  ring

/-- A number below 2^32 is read back from a word (00_scope.md R7). -/
theorem toNat_word_of_lt {v : Nat} (h : v < 2 ^ 32) : (BitVec.ofNat 32 v).toNat = v := by
  rw [BitVec.toNat_ofNat, Nat.mod_eq_of_lt h]

/-- Settles O4: the word by its general form, the lengths because they fit 32 bits. -/
theorem assembledCommandHasGeneralForm : Obligations.AssembledCommandHasGeneralForm := by
  intro a hwf hpayload hpolynomial
  have hplen : a.assemble.plen.toNat = a.payload.length := toNat_word_of_lt hpayload
  have hglen : a.assemble.glen.toNat = a.polynomial.length := toNat_word_of_lt hpolynomial
  exact ⟨encode_toNat a.instr, hplen, hglen, ⟨hplen.symm, hglen.symm⟩, decode_encode hwf⟩

/-! ### Words written out and words placed -/

/-- Settles O1: closed words, decoded by evaluation. -/
theorem sampleWordsDecode : Obligations.SampleWordsDecode := by
  unfold Obligations.SampleWordsDecode
  decide

theorem decode_of_decodeTableWord {nbits w : Nat} {i : Instr} (h : decodeTableWord nbits w = some i) :
    decode (BitVec.ofNat 32 (w % 2 ^ nbits)) = .ok i := by
  unfold decodeTableWord at h
  split at h <;> cases h
  assumption

/-- Placing a word takes the resets off the head of the HOST's moves (log 12). -/
theorem resetPending_withFetchWord (s : State) (nbits w : Nat) :
    resetPending (s.withFetchWord nbits w) = false := by
  have hhead := List.head?_dropWhile_not (fun m => m == HostMove.reset) s.host.moves
  change ((s.host.moves.dropWhile fun m => m == HostMove.reset).head? == some HostMove.reset) = false
  cases hm : (s.host.moves.dropWhile fun m => m == HostMove.reset).head? with
  | none => rfl
  | some m =>
    rw [hm] at hhead
    exact hhead

/-- Settles O6: the block is busy with the placed word and no reset comes first, so it completes. -/
theorem placedWordRunsNext : Obligations.PlacedWordRunsNext := by
  intro s nbits w i h
  have hword : decode (s.withFetchWord nbits w).w0 = .ok i := decode_of_decodeTableWord h
  refine ⟨?_, rfl, rfl⟩
  rw [step_of_busy rfl (resetPending_withFetchWord s nbits w), complete_of_decode hword]

end Sys2Proof.Machine
end

section
/-!
PROOFS. The response of an instruction from the answer of its check, the fields an operation ignores
(30_encoding.md R59), and the bounds of the counts and indices of trace records (R64).
-/

namespace Sys2Proof.Machine

/-! ### The response of an instruction -/

/-- The response an instruction gives to what the check answers. -/
def Checked.response (i : Instr) (w : Work) : Checked → Option Response
  | .error kind => some (.error kind)
  | .refused => none
  | .ok p g => some (.ok (operate i p g w).result (operate i p g w).trace)

theorem responseOf_eq_response (i : Instr) (s : State) :
    responseOf i s = (check i.op i.blockSize s.raw s.g0).response i s.work := by
  unfold responseOf
  rcases exec_cases i s with ⟨k, hcheck, he⟩ | ⟨hcheck, he⟩ | ⟨p, g, hcheck, he⟩ <;>
    rw [hcheck, he] <;> rfl

/-- A response with STATUS OK is that of the operation on operands the check has accepted. -/
theorem check_of_responseOf_ok {i : Instr} {s : State} {r : Result} {tr : List TraceRec}
    (h : responseOf i s = some (.ok r tr)) :
    ∃ p g, check i.op i.blockSize s.raw s.g0 = .ok p g ∧ r = (operate i p g s.work).result ∧
      tr = (operate i p g s.work).trace := by
  rw [responseOf_eq_response] at h
  cases hcheck : check i.op i.blockSize s.raw s.g0 <;> rw [hcheck] at h <;> cases h
  exact ⟨_, _, rfl, rfl, rfl⟩

/-! ### Ignored fields -/

/-- Outside CRC the response does not depend on the polynomial presented. -/
theorem responseOf_of_not_crc {i : Instr} (hcrc : i.op.isCrc = false) (s : State) (glen : Word)
    (genBuf : List Symbol) :
    responseOf i { s with glen := glen, genBuf := genBuf } = responseOf i s := by
  rw [responseOf_eq_response, responseOf_eq_response, check_not_crc hcrc _ _ _ s.g0]
  rfl

/-- Settles O22: the meanings are not given the ignored fields of the word, and outside CRC the check does
not look at the polynomial. -/
theorem unusedFieldsAreIgnored : Obligations.UnusedFieldsAreIgnored :=
  ⟨fun _ _ _ _ => ⟨rfl, rfl, rfl, rfl⟩, fun _ _ _ _ _ => ⟨rfl, rfl⟩,
    fun _ s glen genBuf hcrc => responseOf_of_not_crc hcrc s glen genBuf⟩

/-! ### Sizes of the operands -/

/-- The operands the check hands on (60_exceptions.md R147). -/
theorem operands_of_check_ok {op : Op} {n : Int} {raw g0 : List Symbol} {p g : Bits}
    (h : check op n raw g0 = .ok p g) :
    p = bitsOf (if op.isLrc then strip raw else raw) ∧ g = if op.isCrc then bitsOf g0 else [] := by
  simp only [check] at h
  split_ifs at h <;> cases h <;> simp_all

@[simp] theorem bitsOf_length (t : List Symbol) : (bitsOf t).length = t.length := by simp [bitsOf]

theorem length_le_raw_of_check_ok {op : Op} {n : Int} {raw g0 : List Symbol} {p g : Bits}
    (h : check op n raw g0 = .ok p g) : p.length ≤ raw.length := by
  obtain ⟨rfl, -⟩ := operands_of_check_ok h
  rw [bitsOf_length]
  split
  · exact List.length_filter_le _ _
  · exact le_rfl

theorem isLrc_of_isCrc {op : Op} : op.isCrc = true → op.isLrc = false := by cases op <;> decide

/-- The CRC operations take the payload and the polynomial cell by cell. -/
theorem lengths_of_check_crc_ok {op : Op} {n : Int} {raw g0 : List Symbol} {p g : Bits}
    (h : check op n raw g0 = .ok p g) (hcrc : op.isCrc = true) :
    p.length = raw.length ∧ g.length = g0.length := by
  obtain ⟨rfl, rfl⟩ := operands_of_check_ok h
  simp [hcrc, isLrc_of_isCrc hcrc]

/-- PLEN counts fewer than 2^32 cells. -/
theorem raw_length_lt (s : State) : s.raw.length < 2 ^ 32 :=
  (List.length_take_le _ _).trans_lt s.plen.isLt

/-! ### Sizes of the blocks -/

theorem ceilDiv_le (a b : Nat) : ceilDiv a b ≤ a := by
  unfold ceilDiv
  rcases Nat.eq_zero_or_pos b with rfl | hb
  · simp
  · have hab : a ≤ a * b := Nat.le_mul_of_pos_right a hb
    refine Nat.lt_succ_iff.mp ((Nat.div_lt_iff_lt_mul hb).mpr ?_)
    rw [Nat.succ_mul]
    omega

@[simp] theorem slice_length (p : Bits) (w : Nat) : (slice p w).length = ceilDiv p.length w := by
  simp [slice]

theorem splitBlocks_length (p : Bits) (size : Nat) :
    (splitBlocks p size).length = ceilDiv p.length size - 1 + 1 := by
  simp [splitBlocks]

theorem slice_length_le (p : Bits) (w : Nat) : (slice p w).length ≤ max 1 p.length := by
  rw [slice_length]
  exact (ceilDiv_le ..).trans (le_max_right ..)

theorem splitBlocks_length_le (p : Bits) (size : Nat) :
    (splitBlocks p size).length ≤ max 1 p.length := by
  have hceil := ceilDiv_le p.length size
  rw [splitBlocks_length]
  omega

/-- A piece of a slice is no longer than the width it is cut to (40_shared_primitives.md R79). -/
theorem length_le_of_mem_slice {p c : Bits} {w : Nat} (h : c ∈ slice p w) : c.length ≤ w := by
  obtain ⟨b, -, rfl⟩ := List.mem_map.mp h
  rw [sub_length, Nat.succ_mul]
  omega

theorem of_mem_zipIdx_slice {p c : Bits} {w idx : Nat} (h : (c, idx) ∈ (slice p w).zipIdx) :
    idx < (slice p w).length ∧ c.length ≤ w := by
  obtain ⟨hidx, hc⟩ := List.mem_zipIdx' h
  exact ⟨hidx, length_le_of_mem_slice (hc ▸ List.getElem_mem hidx)⟩

/-- Every operation splits its payload into no more blocks than it has cells, or into one. -/
theorem blocks_length_le (i : Instr) (p g : Bits) (w : Work) :
    ((operate i p g w).result.blocks.getD []).length ≤ max 1 p.length := by
  cases i with
  | parEnc pk n => exact slice_length_le p n.toNat
  | parVer pk n => exact slice_length_le p (n.toNat + 1)
  | csumEnc pk n => exact splitBlocks_length_le p n.toNat
  | csumVer pk n => exact splitBlocks_length_le p n.toNat
  | lrcEnc pk n => exact splitBlocks_length_le p n.toNat
  | lrcVer pk n => exact splitBlocks_length_le p n.toNat
  | crcEnc pk n => exact Nat.zero_le _
  | crcVer pk n => exact Nat.zero_le _

/-! ### The bounds of a record -/

/-- The bounds of 30_encoding.md R64 on the numbers of a record, where there are `m` blocks, N is `n`, and
the divisor has `k` bits of the `len` of the dividend. -/
def TraceRec.WithinBounds (m : Nat) (n : Int) (k len : Nat) : TraceRec → Prop
  | .tPar idx _ ones _ | .tParv idx _ ones _ _ _ => idx < m ∧ (ones : Int) ≤ n
  | .tAdd idx _ _ _ _ _ => idx < m
  | .tCpl _ _ => True
  | .tCol col count _ | .tColv col count _ => (col : Int) < n ∧ n ≤ 32767 ∧ count ≤ m
  | .tXor pos _ _ => pos + k ≤ len

/-- Within the bounds of R64 every number fits its 32-bit field. -/
theorem TraceRec.WithinBounds.numbers_lt {m k len : Nat} {n : Int} {x : TraceRec}
    (hx : x.WithinBounds m n k len) (hm : m < 2 ^ 32) (hn : n ≤ 32767) (hlen : len < 2 ^ 32 + k) :
    ∀ v ∈ x.numbers, v < 2 ^ 32 := by
  cases x with
  | tPar | tParv | tCol | tColv =>
    simp only [TraceRec.WithinBounds] at hx
    simp only [TraceRec.numbers, List.mem_cons, List.not_mem_nil, or_false, forall_eq_or_imp,
      forall_eq]
    omega
  | tAdd | tXor =>
    simp only [TraceRec.WithinBounds] at hx
    simp only [TraceRec.numbers, List.forall_mem_singleton]
    omega
  | tCpl => nofun

/-- A number that fits 32 bits is rendered and read back (30_encoding.md R64). -/
theorem renderCount_of_lt {v : Nat} (h : v < 2 ^ 32) :
    renderCount v = some (BitVec.ofNat 32 v) ∧ (BitVec.ofNat 32 v).toNat = v :=
  ⟨if_pos h, toNat_word_of_lt h⟩

/-! ### The records of each loop -/

theorem countOnes_le_length (b : Bits) : countOnes b ≤ b.length := List.count_le_length

/-- An addition record carries the index of one of the blocks still to add. -/
theorem mem_foldFrom {n acc i : Nat} {bs : List Bits} {x : TraceRec}
    (h : x ∈ (foldFrom n acc i bs).2) :
    ∃ j a b, j < i + bs.length ∧ x = addRecord n j a b := by
  induction bs generalizing acc i with
  | nil => cases h
  | cons b bs ih =>
    rcases List.mem_cons.mp h with rfl | h
    · exact ⟨i, acc, b, by simp, rfl⟩
    · obtain ⟨j, a, c, hj, rfl⟩ := ih h
      exact ⟨j, a, c, by rw [List.length_cons]; omega, rfl⟩

theorem mem_fold {n : Nat} {blocks : List Bits} {x : TraceRec} (h : x ∈ (fold blocks n).2) :
    ∃ j a b, j < blocks.length ∧ x = addRecord n j a b := by
  cases blocks with
  | nil => cases h
  | cons b bs =>
    obtain ⟨j, a, c, hj, rfl⟩ := mem_foldFrom h
    exact ⟨j, a, c, by rwa [List.length_cons, Nat.add_comm], rfl⟩

/-- A division record carries one of the positions the scan visits. -/
theorem mem_scan {g scr : Bits} {count pos : Nat} {x : TraceRec} (h : x ∈ (scan g count pos scr).2) :
    ∃ q scr', q < pos + count ∧ x = xorRecord g scr' q := by
  induction count generalizing pos scr with
  | zero => cases h
  | succ count ih =>
    have hlater {scr' : Bits} (h : x ∈ (scan g count (pos + 1) scr').2) :
        ∃ q scr', q < pos + (count + 1) ∧ x = xorRecord g scr' q := by
      simpa only [Nat.add_assoc, Nat.add_comm 1] using ih h
    unfold scan at h
    split at h
    · rcases List.mem_cons.mp h with rfl | h
      · exact ⟨pos, scr, by omega, rfl⟩
      · exact hlater h
    · exact hlater h

section Bounds

variable {x : TraceRec} {n : Int} {m k len : Nat}

theorem fold_withinBounds {blocks : List Bits} {size : Nat} (h : x ∈ (fold blocks size).2) :
    x.WithinBounds blocks.length n k len := by
  obtain ⟨j, a, b, hj, rfl⟩ := mem_fold h
  exact hj

/-- The window fits the dividend at every position the scan visits (44_crc_divider.md R109). -/
theorem scanAll_withinBounds {d g : Bits} (h : x ∈ (scanAll d g).2) :
    x.WithinBounds m n g.length d.length := by
  obtain ⟨q, scr, hq, rfl⟩ := mem_scan h
  change q + g.length ≤ d.length
  unfold scanCount at hq
  omega

theorem parEnc_withinBounds {p : Bits} {pk : ParityKind} {w : Work} (hn : 0 ≤ n)
    (h : x ∈ (parEnc p n.toNat pk w).trace) :
    x.WithinBounds (slice p n.toNat).length n k len := by
  obtain ⟨⟨b, idx⟩, hmem, rfl⟩ := List.mem_map.mp h
  obtain ⟨hidx, hlen⟩ := of_mem_zipIdx_slice hmem
  have hones : countOnes b ≤ n.toNat := (countOnes_le_length b).trans hlen
  exact ⟨hidx, (Int.le_toNat hn).mp hones⟩

/-- A chunk is cut to n + 1 bits, and its last bit is not counted (45_verify_reduce_and_predicate.md
R121). -/
theorem parVer_withinBounds {f : Bits} {pk : ParityKind} {w : Work} (hn : 0 ≤ n)
    (h : x ∈ (parVer f n.toNat pk w).trace) :
    x.WithinBounds (slice f (n.toNat + 1)).length n k len := by
  obtain ⟨⟨c, idx⟩, hmem, rfl⟩ := List.mem_map.mp h
  obtain ⟨hidx, hlen⟩ := of_mem_zipIdx_slice hmem
  have hdata : (chunkData c).length ≤ n.toNat := by
    rw [chunkData, sub_length]
    omega
  exact ⟨hidx, (Int.le_toNat hn).mp ((countOnes_le_length _).trans hdata)⟩

theorem csumEnc_withinBounds {p : Bits} {size : Nat} {w : Work}
    (h : x ∈ (csumEnc p size w).trace) : x.WithinBounds (splitBlocks p size).length n k len := by
  rcases List.mem_append.mp h with h | h
  · exact fold_withinBounds h
  · obtain rfl := List.mem_singleton.mp h
    trivial

theorem column_withinBounds {c : Nat} (hn : n ≤ 32767) (hc : c ∈ List.range n.toNat)
    (rows : List Bits) : (c : Int) < n ∧ n ≤ 32767 ∧ columnCount rows c ≤ rows.length :=
  ⟨Int.lt_toNat.mp (List.mem_range.mp hc), hn, List.countP_le_length⟩

theorem lrcEnc_withinBounds {p : Bits} {w : Work} (hn : n ≤ 32767)
    (h : x ∈ (lrcEnc p n.toNat w).trace) : x.WithinBounds (splitBlocks p n.toNat).length n k len := by
  obtain ⟨c, hc, rfl⟩ := List.mem_map.mp h
  exact column_withinBounds hn hc _

theorem lrcVer_withinBounds {f : Bits} {w : Work} (hn : n ≤ 32767)
    (h : x ∈ (lrcVer f n.toNat w).trace) : x.WithinBounds (splitBlocks f n.toNat).length n k len := by
  obtain ⟨c, hc, rfl⟩ := List.mem_map.mp h
  exact column_withinBounds hn hc _

end Bounds

/-- The records of every operation are within the bounds of R64. Outside CRC no record speaks of the
divisor, so `k` and `len` matter for CRC alone. -/
theorem operate_withinBounds {i : Instr} {p g : Bits} {w : Work} {x : TraceRec} {k len : Nat}
    (hwf : i.WellFormed) (hn : i.op.isCrc = false → 0 < i.blockSize)
    (hcrc : i.op.isCrc = true → p.length = len ∧ g.length = k) (hx : x ∈ (operate i p g w).trace) :
    x.WithinBounds ((operate i p g w).result.blocks.getD []).length i.blockSize k
      (len + if i.op = .crcEnc then k - 1 else 0) := by
  obtain ⟨-, hmax⟩ := hwf
  cases i with
  | parEnc pk n => exact parEnc_withinBounds (hn rfl).le hx
  | parVer pk n => exact parVer_withinBounds (hn rfl).le hx
  | csumEnc pk n => exact csumEnc_withinBounds hx
  | csumVer pk n => exact fold_withinBounds hx
  | lrcEnc pk n => exact lrcEnc_withinBounds hmax hx
  | lrcVer pk n => exact lrcVer_withinBounds hmax hx
  | crcEnc pk n =>
    obtain ⟨rfl, rfl⟩ := hcrc rfl
    have hlen : (p ++ zeros (g.length - 1)).length = p.length + (g.length - 1) := by simp
    exact hlen ▸ scanAll_withinBounds hx
  | crcVer pk n =>
    obtain ⟨rfl, rfl⟩ := hcrc rfl
    exact scanAll_withinBounds hx

/-- Settles O35: the operands an OK response rests on bound every record its loops emit, and PLEN bounds the
number of blocks and the length of the dividend. -/
theorem recordCountsAreBounded : Obligations.RecordCountsAreBounded := by
  intro i s r tr hwf hresp x hx
  obtain ⟨p, g, hcheck, rfl, rfl⟩ := check_of_responseOf_ok hresp
  have hbounds := operate_withinBounds hwf (blockSize_pos_of_check_ok hcheck)
    (lengths_of_check_crc_ok hcheck) hx
  have hraw := raw_length_lt s
  have hblocks : ((operate i p g s.work).result.blocks.getD []).length < 2 ^ 32 := by
    have hle := blocks_length_le i p g s.work
    have hp := length_le_raw_of_check_ok hcheck
    omega
  refine ⟨?bounds, fun v hv => renderCount_of_lt (hbounds.numbers_lt hblocks hwf.2 ?_ v hv)⟩
  case bounds => cases x <;> exact hbounds
  split <;> omega

end Sys2Proof.Machine
end

section
/-!
PROOFS. Cutting a bit string into pieces of one width: `slice` and `splitBlocks` (40_shared_primitives.md
R77, R79).
-/

namespace Sys2Proof.Machine

/-! ### sub and ceilDiv -/

theorem sub_min_length (s : Bits) (i j : Nat) : sub s i (min j s.length) = sub s i j := by
  rw [sub, sub, ← List.take_take, List.take_length]

theorem take_append_sub (s : Bits) {i j : Nat} (h : i ≤ j) : s.take i ++ sub s i j = s.take j := by
  calc s.take i ++ sub s i j
      = (s.take j).take i ++ (s.take j).drop i := by rw [List.take_take, min_eq_left h, sub]
    _ = s.take j := List.take_append_drop i _

/-- `ceilDiv L w` counts the piece in which the last of the L cells falls. -/
theorem exists_ceilDiv_eq_succ {L w : Nat} (hL : 0 < L) (hw : 0 < w) :
    ∃ m, ceilDiv L w = m + 1 ∧ m * w < L ∧ L ≤ (m + 1) * w := by
  have hle (c : Nat) : ceilDiv L w ≤ c ↔ L ≤ c * w := by
    rw [mul_comm]
    exact ceilDiv_le_iff_le_mul hw
  cases hm : ceilDiv L w with
  | zero =>
    have hzero := (hle 0).mp hm.le
    omega
  | succ m =>
    have hshort : ¬ ceilDiv L w ≤ m := by omega
    exact ⟨m, rfl, not_le.mp (mt (hle m).mpr hshort), (hle (m + 1)).mp hm.le⟩

/-! ### The pieces before any padding -/

/-- The first m pieces of width w of p, cut off where p ends. -/
def pieces (p : Bits) (w m : Nat) : List Bits :=
  (List.range m).map fun b => sub p (b * w) ((b + 1) * w)

theorem slice_eq_pieces (p : Bits) (w : Nat) : slice p w = pieces p w (ceilDiv p.length w) := by
  simp only [slice, pieces, sub_min_length]

theorem splitBlocks_of_ceilDiv {p : Bits} {size m : Nat} (hm : ceilDiv p.length size = m + 1) :
    splitBlocks p size = pieces p size m ++
      [sub p (m * size) p.length ++ zeros (size - (p.length - m * size))] := by
  simp only [splitBlocks, pieces, hm, Nat.add_sub_cancel, sub_length, min_self]

theorem pieces_succ (p : Bits) (w m : Nat) :
    pieces p w (m + 1) = pieces p w m ++ [sub p (m * w) ((m + 1) * w)] := by
  simp [pieces, List.range_succ]

/-- The pieces are consecutive: put together they are the cells up to where the last one ends. -/
theorem flatten_pieces (p : Bits) (w m : Nat) : (pieces p w m).flatten = p.take (m * w) := by
  induction m with
  | zero => simp [pieces]
  | succ m ih =>
    have hmono : m * w ≤ (m + 1) * w := Nat.mul_le_mul_right w m.le_succ
    rw [pieces_succ, List.flatten_append, ih, List.flatten_singleton, take_append_sub p hmono]

theorem getD_pieces {p : Bits} {w m b : Nat} (h : b < m) :
    (pieces p w m).getD b [] = sub p (b * w) ((b + 1) * w) := by
  simp [pieces, List.getD_eq_getElem?_getD, h]

theorem length_sub_of_le {p : Bits} {w b : Nat} (h : (b + 1) * w ≤ p.length) :
    (sub p (b * w) ((b + 1) * w)).length = w := by
  rw [sub_length, min_eq_left h, Nat.succ_mul, Nat.add_sub_cancel_left]

/-- Every piece that ends before p does is full. -/
theorem length_of_mem_pieces {p c : Bits} {w m : Nat} (h : m * w ≤ p.length)
    (hc : c ∈ pieces p w m) : c.length = w := by
  obtain ⟨b, hb, rfl⟩ := List.mem_map.mp hc
  have hend : (b + 1) * w ≤ m * w := Nat.mul_le_mul_right w (List.mem_range.mp hb)
  exact length_sub_of_le (hend.trans h)

/-! ### The obligations about slice and splitBlocks -/

/-- Settles O37: a slice is the first `ceilDiv L w` pieces, and p ends inside the last of them. -/
theorem sliceCutsWithoutPadding : Obligations.SliceCutsWithoutPadding := by
  intro p w hp hw
  obtain ⟨m, hm, hlast, hend⟩ := exists_ceilDiv_eq_succ (List.length_pos_iff.mpr hp) hw
  have hsucc : (m + 1) * w = m * w + w := Nat.succ_mul m w
  refine ⟨slice_length p w, ?_⟩
  rw [slice_eq_pieces, hm, Nat.add_sub_cancel, flatten_pieces, getD_pieces m.lt_succ_self, sub_length,
    min_eq_right hend]
  refine ⟨List.take_of_length_le hend, fun b hb => ?full, rfl, by omega, by omega⟩
  case full =>
    have hb' : (b + 1) * w ≤ m * w := Nat.mul_le_mul_right w (Nat.le_of_lt_succ hb)
    rw [getD_pieces (Nat.lt_of_succ_lt hb), length_sub_of_le (hb'.trans hlast.le)]

/-- Put together, the blocks are p and the padding of the last block (40_shared_primitives.md R77). -/
theorem flatten_splitBlocks {p : Bits} {size : Nat} (hp : p ≠ []) (hsize : 0 < size) :
    (splitBlocks p size).flatten = p ++ zeros (ceilDiv p.length size * size - p.length) := by
  obtain ⟨m, hm, hlast, -⟩ := exists_ceilDiv_eq_succ (List.length_pos_iff.mpr hp) hsize
  have hpad : size - (p.length - m * size) = (m + 1) * size - p.length := by
    rw [Nat.succ_mul]
    omega
  rw [splitBlocks_of_ceilDiv hm, List.flatten_append, flatten_pieces, List.flatten_singleton,
    ← List.append_assoc, take_append_sub p hlast.le, List.take_length, hpad, hm]

theorem length_of_mem_splitBlocks {p b : Bits} {size : Nat} (hp : p ≠ []) (hsize : 0 < size)
    (hb : b ∈ splitBlocks p size) : b.length = size := by
  obtain ⟨m, hm, hlast, hend⟩ := exists_ceilDiv_eq_succ (List.length_pos_iff.mpr hp) hsize
  rw [splitBlocks_of_ceilDiv hm] at hb
  rcases List.mem_append.mp hb with hb | hb
  · exact length_of_mem_pieces hlast.le hb
  · rw [List.mem_singleton.mp hb, List.length_append, sub_length, zeros_length, min_self]
    rw [Nat.succ_mul] at hend
    omega

theorem ceilDiv_mul_of_dvd {L size : Nat} (hsize : 0 < size) (h : size ∣ L) :
    ceilDiv L size * size = L := by
  obtain ⟨k, rfl⟩ := h
  have hk : ceilDiv (size * k) size = k := smul_ceilDiv hsize k
  rw [hk, mul_comm]

/-- Settles O38: all blocks but the last are full pieces, and the padding fills the last one up to
`size`. -/
theorem splitBlocksPadsOnTheRight : Obligations.SplitBlocksPadsOnTheRight := by
  intro p size hp hsize
  obtain ⟨m, hm, -⟩ := exists_ceilDiv_eq_succ (List.length_pos_iff.mpr hp) hsize
  have hcount : 1 ≤ ceilDiv p.length size := hm ▸ m.succ_pos
  refine ⟨?count, hcount, fun b => length_of_mem_splitBlocks hp hsize, flatten_splitBlocks hp hsize,
    fun hdvd => ?unpadded⟩
  case count => rw [splitBlocks_length, Nat.sub_add_cancel hcount]
  case unpadded =>
    rw [flatten_splitBlocks hp hsize, ceilDiv_mul_of_dvd hsize hdvd, Nat.sub_self, zeros,
      List.replicate_zero, List.append_nil]

end Sys2Proof.Machine
end

section
/-!
PROOFS. The parity encoder: the parity bit (41_parity_encoder.md R85) and PAR.ENC (R86), over what every
instruction does once the check has accepted its operands (30_encoding.md R69).
-/

namespace Sys2Proof.Machine

/-! ### An instruction on accepted operands -/

theorem exec_of_check_ok {i : Instr} {s : State} {p g : Bits}
    (h : check i.op i.blockSize s.raw s.g0 = .ok p g) :
    exec i s = .next (s.finish (operate i p g s.work).result (operate i p g s.work).trace
      (operate i p g s.work).work) := by
  rw [exec_eq_runChecked, runChecked_ok _ h]

/-- A non-CRC instruction with a positive block size completes on a binary payload; for the LRC operations
SW may stand anywhere (60_exceptions.md R147). -/
theorem exec_sized {i : Instr} {s : State} {p : Bits} (hcrc : i.op.isCrc = false)
    (hn : 1 ≤ i.blockSize) (hp : p ≠ [])
    (hraw : (if i.op.isLrc then strip s.raw else s.raw) = binary p) :
    exec i s = .next (s.finish (operate i p [] s.work).result (operate i p [] s.work).trace
      (operate i p [] s.work).work) :=
  exec_of_check_ok (check_sized hcrc hn hp hraw)

/-! ### The parity bit -/

theorem parityBit_of_even {b : Bits} (h : countOnes b % 2 = 0) (pk : ParityKind) :
    parityBit b pk = pk.bit := by
  simp [parityBit_eq, h]

theorem parityBit_of_odd {b : Bits} (h : countOnes b % 2 = 1) (pk : ParityKind) :
    parityBit b pk = !pk.bit := by
  simp [parityBit_eq, h]

theorem countOnes_singleton (x : Bool) : countOnes [x] = x.toNat := by cases x <;> rfl

/-- An output block has the 1-count parity that its kind asks for (41_parity_encoder.md R85): the bit is
the block's own parity plus PK, so the two together leave PK. -/
theorem countOnes_parityBlock_mod_two (pk : ParityKind) (b : Bits) :
    countOnes (parityBlock pk b) % 2 = pk.bit.toNat := by
  rw [parityBlock, countOnes_append, countOnes_singleton, Nat.add_mod]
  rcases Nat.mod_two_eq_zero_or_one (countOnes b) with h | h
  · rw [parityBit_of_even h, h]
    cases pk <;> rfl
  · rw [parityBit_of_odd h, h]
    cases pk <;> rfl

/-- Settles O39: the bit is PK on an even count and its complement on an odd one, so the 1-count of an output
block is PK modulo 2. -/
theorem parityBitMakesCountMatchKind : Obligations.ParityBitMakesCountMatchKind := fun b =>
  ⟨fun h => ⟨parityBit_of_even h .even, parityBit_of_even h .odd⟩,
    fun h => ⟨parityBit_of_odd h .even, parityBit_of_odd h .odd⟩,
    countOnes_parityBlock_mod_two .even b, countOnes_parityBlock_mod_two .odd b⟩

/-! ### PAR.ENC -/

theorem parityFrame_eq_flatMap (pk : ParityKind) (blocks : List Bits) :
    parityFrame pk blocks = blocks.flatMap (parityBlock pk) :=
  List.flatMap_def.symm

/-- Settles O26: the check accepts the payload, and the frame of `parEnc` is the output blocks in order. -/
theorem parEncResult : Obligations.ParEncResult := by
  intro pk n s p hraw hp hn
  rw [exec_sized (i := .parEnc pk n) rfl hn hp hraw, operate, parEnc, parityFrame_eq_flatMap]
  rfl

end Sys2Proof.Machine
end

section
/-!
PROOFS. The checksum encoder: addition with end-around carry (42_checksum_encoder.md R92, R93), the fold as
the 1's-complement sum (R94, R99), the complement (R95) and CSUM.ENC (R96).
-/

namespace Sys2Proof.Machine

/-! ### addWrap -/

/-- The two ways an addition can go: with no carry the result is the sum, with a carry it is the sum less
2^n - 1 (42_checksum_encoder.md R92). -/
theorem addWrap_cases {a b n : Nat} (ha : a < 2 ^ n) (hb : b < 2 ^ n) :
    (a + b < 2 ^ n ∧ addCarry a b n = 0 ∧ addRes a b n = a + b) ∨
    (2 ^ n ≤ a + b ∧ addCarry a b n = 1 ∧ addRes a b n + (2 ^ n - 1) = a + b) := by
  have hlow : (a + b) % 2 ^ n < 2 ^ n := Nat.mod_lt _ (Nat.two_pow_pos n)
  have hsplit : 2 ^ n * addCarry a b n + (a + b) % 2 ^ n = a + b := Nat.div_add_mod (a + b) (2 ^ n)
  have hres : addRes a b n = (a + b) % 2 ^ n + addCarry a b n := rfl
  rcases Nat.le_one_iff_eq_zero_or_eq_one.mp (addCarry_le_one ha hb) with hcarry | hcarry <;>
    rw [hcarry] at hsplit hres
  · exact .inl ⟨by omega, hcarry, by omega⟩
  · exact .inr ⟨by omega, hcarry, by omega⟩

theorem addRes_lt {a b n : Nat} (ha : a < 2 ^ n) (hb : b < 2 ^ n) : addRes a b n < 2 ^ n := by
  rcases addWrap_cases ha hb with h | h <;> omega

theorem addRes_comm (a b n : Nat) : addRes a b n = addRes b a n := by
  simp only [addRes, addCarry, addRaw, Nat.add_comm]

/-! ### The 1's-complement sum of a total -/

/-- `r` is the n-bit 1's-complement sum of operands that add up to `t` (42_checksum_encoder.md R99): congruent
to `t` modulo 2^n - 1, where of the two representatives 0 and 2^n - 1 of zero only `t = 0` takes 0. -/
structure IsOnesSum (n t r : Nat) : Prop where
  lt : r < 2 ^ n
  eq_zero_iff : r = 0 ↔ t = 0
  modEq : r ≡ t [MOD 2 ^ n - 1]

/-- One n-bit operand is its own sum. -/
theorem IsOnesSum.self {n a : Nat} (h : a < 2 ^ n) : IsOnesSum n a a := ⟨h, Iff.rfl, .rfl⟩

/-- A total has only one sum. -/
theorem IsOnesSum.unique {n t r r' : Nat} (h : IsOnesSum n t r) (h' : IsOnesSum n t r') : r = r' := by
  have hzero : r = 0 ↔ r' = 0 := h.eq_zero_iff.trans h'.eq_zero_iff.symm
  have hmod : r ≡ r' [MOD 2 ^ n - 1] := h.modEq.trans h'.modEq.symm
  have hlt := h.lt
  have hlt' := h'.lt
  rcases Nat.eq_zero_or_pos r with hr | hr
  · omega
  · obtain ⟨k, rfl⟩ := Nat.exists_eq_add_of_le' hr
    obtain ⟨k', rfl⟩ : ∃ k', r' = k' + 1 := Nat.exists_eq_add_of_le' (by omega)
    rw [(Nat.ModEq.add_right_cancel' 1 hmod).eq_of_lt_of_lt (by omega) (by omega)]

/-- `addWrap` adds totals: a carry taken out of the top and added back takes away 2^n - 1. -/
theorem IsOnesSum.add {n t u a b : Nat} (ha : IsOnesSum n t a) (hb : IsOnesSum n u b) :
    IsOnesSum n (t + u) (addRes a b n) where
  lt := addRes_lt ha.lt hb.lt
  eq_zero_iff := by
    rw [Nat.add_eq_zero_iff, ← ha.eq_zero_iff, ← hb.eq_zero_iff]
    have hpos := Nat.two_pow_pos n
    have hlt := ha.lt
    have hlt' := hb.lt
    rcases addWrap_cases hlt hlt' with h | h <;> omega
  modEq := by
    refine .trans ?_ (ha.modEq.add hb.modEq)
    rcases addWrap_cases ha.lt hb.lt with ⟨-, -, hres⟩ | ⟨-, -, hres⟩
    · rw [hres]
    · rw [← hres, Nat.ModEq.comm, Nat.add_modEq_left_iff]

/-- Both ways of adding three operands give a sum of the same total. -/
theorem addRes_assoc {a b c n : Nat} (ha : a < 2 ^ n) (hb : b < 2 ^ n) (hc : c < 2 ^ n) :
    addRes (addRes a b n) c n = addRes a (addRes b c n) n := by
  have hleft := ((IsOnesSum.self ha).add (.self hb)).add (.self hc)
  have hright := (IsOnesSum.self ha).add ((IsOnesSum.self hb).add (.self hc))
  rw [Nat.add_assoc] at hleft
  exact hleft.unique hright

/-! ### fold -/

theorem val_ne_zero_iff (b : Bits) : val b ≠ 0 ↔ true ∈ b := by
  induction b with
  | nil => simp [val]
  | cons x b ih => cases x <;> simp [val_cons, ← ih]

theorem foldFrom_isOnesSum {n t acc : Nat} (i : Nat) {bs : List Bits} (hacc : IsOnesSum n t acc)
    (hbs : ∀ b ∈ bs, b.length = n) :
    IsOnesSum n (t + (bs.map val).sum) (foldFrom n acc i bs).1 := by
  induction bs generalizing t acc i with
  | nil => exact hacc
  | cons b bs ih =>
    obtain ⟨rfl, hbs⟩ := List.forall_mem_cons.mp hbs
    rw [List.map_cons, List.sum_cons, ← Nat.add_assoc]
    exact ih (i + 1) (hacc.add (.self (val_lt b))) hbs

/-- The fold is the 1's-complement sum of its blocks (42_checksum_encoder.md R99). -/
theorem fold_isOnesSum {n : Nat} {blocks : List Bits} (h : ∀ b ∈ blocks, b.length = n) :
    IsOnesSum n (blocks.map val).sum (fold blocks n).1 := by
  cases blocks with
  | nil => exact .self (Nat.two_pow_pos n)
  | cons b bs =>
    obtain ⟨rfl, hbs⟩ := List.forall_mem_cons.mp h
    exact foldFrom_isOnesSum 1 (.self (val_lt b)) hbs

/-- Only zero blocks fold to 0. -/
theorem fold_ne_zero_iff {n : Nat} {blocks : List Bits} (h : ∀ b ∈ blocks, b.length = n) :
    (fold blocks n).1 ≠ 0 ↔ ∃ b ∈ blocks, val b ≠ 0 := by
  rw [Ne, (fold_isOnesSum h).eq_zero_iff, List.sum_eq_zero_iff, List.forall_mem_map]
  push Not
  rfl

theorem fold_take_lt {n : Nat} {blocks : List Bits} (h : ∀ b ∈ blocks, b.length = n) (j : Nat) :
    (fold (blocks.take j) n).1 < 2 ^ n :=
  (fold_isOnesSum fun b hb => h b (List.mem_of_mem_take hb)).lt

theorem val_getD_lt {n j : Nat} {blocks : List Bits} (h : ∀ b ∈ blocks, b.length = n)
    (hj : j < blocks.length) : val (blocks.getD j []) < 2 ^ n := by
  rw [List.getD_eq_getElem _ _ hj, ← h _ (List.getElem_mem hj)]
  exact val_lt _

/-- Each block after the first is added to the fold of those before it (42_checksum_encoder.md R94). -/
theorem fold_take_succ {n j : Nat} {blocks : List Bits} (hj : j + 1 < blocks.length) :
    (fold (blocks.take (j + 2)) n).1 =
      addRes (fold (blocks.take (j + 1)) n).1 (val (blocks.getD (j + 1) [])) n := by
  cases blocks with
  | nil => cases hj
  | cons b bs =>
    have hj : j < bs.length := Nat.lt_of_succ_lt_succ hj
    rw [List.getD_cons_succ, List.getD_eq_getElem _ _ hj, List.take_succ_cons, List.take_succ_cons,
      List.take_succ_eq_append_getElem hj, fold_cons, fold_cons, foldFrom_append]
    rfl

theorem foldFrom_trace_getElem? (n acc i : Nat) (bs : List Bits) (j : Nat) :
    (foldFrom n acc i bs).2[j]? =
      bs[j]?.map (addRecord n (i + j) (foldFrom n acc i (bs.take j)).1) := by
  induction bs generalizing acc i j with
  | nil => rfl
  | cons b bs ih =>
    cases j with
    | zero => rfl
    | succ j =>
      rw [show i + (j + 1) = i + 1 + j by omega]
      exact ih (addRes acc (val b) n) (i + 1) j

theorem fold_trace_length {n : Nat} (blocks : List Bits) :
    (fold blocks n).2.length = blocks.length - 1 := by
  cases blocks with
  | nil => rfl
  | cons b bs => exact foldFrom_trace_length n (val b) 1 bs

/-- The record of an addition holds the fold of the blocks before it (42_checksum_encoder.md R94). -/
theorem fold_trace_getElem? {n j : Nat} {blocks : List Bits} (hj : j + 1 < blocks.length) :
    (fold blocks n).2[j]? =
      some (addRecord n (j + 1) (fold (blocks.take (j + 1)) n).1 (blocks.getD (j + 1) [])) := by
  cases blocks with
  | nil => cases hj
  | cons b bs =>
    have hj : j < bs.length := Nat.lt_of_succ_lt_succ hj
    rw [fold_cons, foldFrom_trace_getElem?, List.getElem?_eq_getElem hj, List.getD_cons_succ,
      List.getD_eq_getElem _ _ hj, Nat.add_comm 1]
    rfl

/-! ### The raw sum in n + 1 bits -/

theorem addRaw_lt {a b n : Nat} (ha : a < 2 ^ n) (hb : b < 2 ^ n) : addRaw a b < 2 ^ (n + 1) := by
  rw [addRaw, Nat.pow_succ]
  omega

theorem head?_bin_succ (v w : Nat) : (bin v (w + 1)).head? = some (v.testBit w) := by
  simp [bin, List.range_succ_eq_map]

/-- The first of the n + 1 bits of the raw sum is the carry (30_encoding.md R63). -/
theorem head?_bin_addRaw {a b n : Nat} (ha : a < 2 ^ n) (hb : b < 2 ^ n) :
    (bin (addRaw a b) (n + 1)).head? = some (addCarry a b n == 1) := by
  have hcarry : addCarry a b n < 2 := Nat.lt_succ_of_le (addCarry_le_one ha hb)
  rw [head?_bin_succ, Nat.testBit_eq_decide_div_mod_eq]
  change some (decide (addCarry a b n % 2 = 1)) = _
  rw [Nat.mod_eq_of_lt hcarry]
  rfl

theorem toNat_carry {a b n : Nat} (ha : a < 2 ^ n) (hb : b < 2 ^ n) :
    (addCarry a b n == 1).toNat = addCarry a b n := by
  rcases addWrap_cases ha hb with ⟨-, h, -⟩ | ⟨-, h, -⟩ <;> rw [h] <;> rfl

/-! ### onesComplement -/

/-- The complement inverts the low n bits of any number (42_checksum_encoder.md R95). -/
theorem bin_onesComplement (s n : Nat) : bin (onesComplement s n) n = notBits (bin s n) := by
  rw [bin, bin, notBits, List.map_map]
  refine List.map_congr_left fun i hi => ?_
  have hlow : n - 1 - i < n := by
    have hi := List.mem_range.mp hi
    omega
  simp [onesComplement, Nat.testBit_two_pow_sub_one, hlow]

theorem onesComplement_eq_sub {s n : Nat} (h : s < 2 ^ n) : onesComplement s n = 2 ^ n - 1 - s := by
  refine Nat.eq_of_testBit_eq fun i => ?_
  rw [Nat.sub_sub, Nat.add_comm 1, Nat.testBit_two_pow_sub_succ h, onesComplement, Nat.testBit_xor,
    Nat.testBit_two_pow_sub_one]
  by_cases hi : i < n
  · simp [hi]
  · have hhigh : s.testBit i = false :=
      Nat.testBit_lt_two_pow (h.trans_le (Nat.pow_le_pow_right two_pos (not_lt.mp hi)))
    simp [hi, hhigh]

/-! ### The obligations -/

/-- Settles O40, by the two ways an addition can go; associativity because a total has one 1's-complement
sum. -/
theorem addWrapIsEndAroundCarry : Obligations.AddWrapIsEndAroundCarry := by
  intro a b c n hn ha hb hc
  have hpow : 2 ≤ 2 ^ n := Nat.le_self_pow (Nat.ne_of_gt hn) 2
  have hsucc : 2 ^ (n + 1) = 2 * 2 ^ n := Nat.pow_succ'
  have hcases := addWrap_cases ha hb
  refine ⟨rfl, by omega, by omega, fun h => by omega, fun h => by omega, fun h => by omega,
    fun h h' => ⟨?rawMax, by omega, by omega⟩, ?neutral, addRes_comm a b n, addRes_assoc ha hb hc⟩
  case rawMax =>
    rw [addRaw]
    omega
  case neutral => rcases addWrap_cases (Nat.two_pow_pos n) hb with h | h <;> omega

/-- Settles O41: the result of each addition is below 2^n again, so the fold of the blocks before one is
too. -/
theorem addWrapNeverOverflowsTwice : Obligations.AddWrapNeverOverflowsTwice := by
  refine ⟨fun a b n hn ha hb => ?addition, fun blocks n j hn h hj => ?premise⟩
  case addition =>
    have hpos := Nat.two_pow_pos n
    have hsucc : 2 ^ (n + 1) = 2 * 2 ^ n := Nat.pow_succ'
    have ha : a < 2 ^ n := by omega
    have hb : b < 2 ^ n := by omega
    have hres := addRes_lt ha hb
    have hdef : addRes a b n = (a + b) % 2 ^ n + addCarry a b n := rfl
    refine ⟨by omega, addCarry_le_one ha hb, fun hcarry => ?_, hres, Nat.div_eq_of_lt hres,
      val_bin hres⟩
    rcases addWrap_cases ha hb with ⟨-, h, -⟩ | h <;> omega
  case premise =>
    exact ⟨Nat.le_pred_of_lt (fold_take_lt h _), Nat.le_pred_of_lt (val_getD_lt h hj)⟩

/-- Settles O42: the fold is a 1's-complement sum of the total, and there is only one. -/
theorem foldIsOnesComplementSum : Obligations.FoldIsOnesComplementSum := by
  intro blocks n hn hne h
  have hsum := fold_isOnesSum h
  have hnonzero := fold_ne_zero_iff h
  refine ⟨fun hall => ?zero, fun hex => ?nonzero, fun hn1 => ?bits⟩
  case zero =>
    by_contra hr
    obtain ⟨b, hb, hval⟩ := hnonzero.mp hr
    exact hval (hall b hb)
  case nonzero =>
    have hr : (fold blocks n).1 ≠ 0 := hnonzero.mpr hex
    refine ⟨Nat.pos_of_ne_zero hr, Nat.le_pred_of_lt hsum.lt, hsum.modEq, fun r' hlow hhigh hmod => ?_⟩
    have hr' : r' = 0 ↔ (blocks.map val).sum = 0 := by
      rw [← hsum.eq_zero_iff]
      omega
    exact IsOnesSum.unique ⟨by omega, hr', hmod⟩ hsum
  case bits =>
    subst hn1
    have hlt := hsum.lt
    have hone : (fold blocks 1).1 = 1 ↔ (fold blocks 1).1 ≠ 0 := by omega
    simp only [hone, hnonzero, val_ne_zero_iff]

/-- Settles O43: the record of an addition, read with the carry as first bit of the raw sum. -/
theorem foldTraceShowsEachAddition : Obligations.FoldTraceShowsEachAddition := by
  intro blocks n hn hne h
  refine ⟨fold_trace_length blocks, ?first, fun j hj => ?record⟩
  case first =>
    obtain ⟨b, bs, rfl⟩ := List.exists_cons_of_ne_nil hne
    rfl
  case record =>
    have hacc := fold_take_lt h (j + 1)
    have hb := val_getD_lt h hj
    rw [fold_take_succ hj, val_bin (addRes_lt hacc hb)]
    refine ⟨_, _, fold_trace_getElem? hj, bin_length _ _, val_bin (addRaw_lt hacc hb),
      head?_bin_addRaw hacc hb, ?_⟩
    rw [toNat_carry hacc hb]
    rfl

/-- Settles O44: bit by bit, the corner cases from the laws of XOR. -/
theorem onesComplementInvertsEveryBit : Obligations.OnesComplementInvertsEveryBit :=
  ⟨fun s n h => ⟨onesComplement_eq_sub (Nat.lt_of_le_pred (Nat.two_pow_pos n) h), bin_onesComplement s n⟩,
    fun _ => ⟨Nat.zero_xor _, Nat.xor_self _⟩, rfl⟩

/-- Settles O28: the check accepts the payload, and the bits of the complement are those of the sum
inverted. -/
theorem csumEncResult : Obligations.CsumEncResult := by
  intro pk n s p hraw hp hn
  rw [exec_sized (i := .csumEnc pk n) rfl hn hp hraw, operate, csumEnc, bin_onesComplement]
  rfl

end Sys2Proof.Machine
end

section
/-!
PROOFS. The LRC encoder: the count and the bit of a column (43_lrc_encoder.md R102, R103), the LRC as the XOR of
the rows (R103) and LRC.ENC (R104).
-/

namespace Sys2Proof.Machine

/-! ### Columns -/

/-- In a column past its end a row has no '1' to count (43_lrc_encoder.md R102). -/
theorem columnCount_eq_countP_getElem? (rows : List Bits) (c : Nat) :
    columnCount rows c = rows.countP fun r => r[c]? == some true := by
  refine List.countP_congr fun r _ => ?_
  rw [List.getD_eq_getElem?_getD]
  cases r[c]? <;> simp

theorem columnBit_nil (c : Nat) : columnBit [] c = false := rfl

/-- One more row flips the bit of each column in which it has a '1'. -/
theorem columnBit_concat (rows : List Bits) (r : Bits) (c : Nat) :
    columnBit (rows ++ [r]) c = (columnBit rows c ^^ r.getD c false) := by
  have hcount : columnCount (rows ++ [r]) c = columnCount rows c + (r.getD c false).toNat := by
    rw [columnCount, List.countP_append, List.countP_singleton]
    cases r.getD c false <;> rfl
  rw [columnBit, columnBit, hcount]
  cases r.getD c false
  · rw [Bool.toNat_false, Nat.add_zero, Bool.xor_false]
  · rcases Nat.mod_two_eq_zero_or_one (columnCount rows c) with h | h <;>
      simp [Nat.add_mod, h]

/-! ### lrcOf -/

@[simp] theorem lrcOf_length (rows : List Bits) (n : Nat) : (lrcOf rows n).length = n := by
  simp [lrcOf]

theorem lrcOf_getElem? (rows : List Bits) {n c : Nat} (hc : c < n) :
    (lrcOf rows n)[c]? = some (columnBit rows c) := by
  simp [lrcOf, hc]

/-- No row leaves an even count, 0, in every column. -/
theorem lrcOf_nil (n : Nat) : lrcOf [] n = zeros n := by
  simp [lrcOf, columnBit_nil, zeros, List.map_const']

/-- One more row is one more XOR (43_lrc_encoder.md R103). -/
theorem lrcOf_concat {rows : List Bits} {r : Bits} {n : Nat} (hr : r.length = n) :
    lrcOf (rows ++ [r]) n = xorBits (lrcOf rows n) r := by
  refine List.ext_getElem (by simp [hr]) fun c _ hc => ?_
  have hc : c < r.length := by simpa [hr] using hc
  simp [lrcOf, xorBits, columnBit_concat, hc]

theorem lrcOf_eq_foldl_xorBits {rows : List Bits} {n : Nat} (h : ∀ r ∈ rows, r.length = n) :
    lrcOf rows n = rows.foldl xorBits (zeros n) := by
  induction rows using List.reverseRecOn with
  | nil => exact lrcOf_nil n
  | append_singleton rows r ih =>
    obtain ⟨hrows, hr⟩ := List.forall_mem_append.mp h
    rw [lrcOf_concat (hr r List.mem_cons_self), ih hrows, List.foldl_concat]

theorem zeros_xorBits (r : Bits) : xorBits (zeros r.length) r = r := by
  refine List.ext_getElem (by simp) fun c _ _ => ?_
  simp [xorBits, zeros]

/-! ### The obligations -/

/-- Settles O45: each row XORs its bits into the LRC of the rows before it, from zeros for no row on. -/
theorem lrcIsXorOfRows : Obligations.LrcIsXorOfRows := by
  intro rows n h
  refine ⟨lrcOf_length rows n, fun c hc => ?bit, lrcOf_eq_foldl_xorBits h, fun r hr => ?single⟩
  case bit =>
    rw [lrcOf_getElem? rows hc]
    rfl
  case single =>
    subst hr
    rw [← List.nil_append [r], lrcOf_concat rfl, lrcOf_nil, zeros_xorBits]

/-- Settles O30: the check accepts the stripped payload, and `lrcEnc` counts the columns of its blocks. -/
theorem lrcEncResult : Obligations.LrcEncResult := by
  intro pk n s p hraw hp hn
  rw [exec_sized (i := .lrcEnc pk n) rfl hn hp hraw, operate, lrcEnc]
  simp only [lrcOf, lrcEncRecord, columnBit, afterColumns, columnCount_eq_countP_getElem?]
  rfl

end Sys2Proof.Machine
end

section
/-!
PROOFS. The CRC divider: the polynomial a bit string spells (44_crc_divider.md R108), what one XOR of the scan
does to it and to SCR (R109), the facts of R110, and CRC.ENC (R112).
-/

namespace Sys2Proof.Machine

open Polynomial

/-! ### The polynomial of a bit string -/

theorem polyOf_concat (s : Bits) (x : Bool) :
    polyOf (s ++ [x]) = polyOf s * X + C (if x then 1 else 0) := by
  rw [polyOf, List.foldl_concat]
  rfl

theorem polyOf_append (s t : Bits) : polyOf (s ++ t) = polyOf s * X ^ t.length + polyOf t := by
  induction t using List.reverseRecOn with
  | nil => simp [polyOf]
  | append_singleton t x ih =>
    rw [← List.append_assoc, polyOf_concat, polyOf_concat, ih, List.length_append, List.length_singleton]
    ring

theorem polyOf_cons (x : Bool) (s : Bits) :
    polyOf (x :: s) = C (if x then 1 else 0) * X ^ s.length + polyOf s := by
  rw [← List.singleton_append, polyOf_append]
  simp [polyOf]

theorem polyOf_zeros (w : Nat) : polyOf (zeros w) = 0 := by
  induction w with
  | zero => rfl
  | succ w ih =>
    rw [zeros, List.replicate_succ, polyOf_cons, ← zeros, ih]
    simp

/-- XOR is addition of polynomials over GF(2). -/
theorem polyOf_xorBits {s t : Bits} (h : s.length = t.length) :
    polyOf (xorBits s t) = polyOf s + polyOf t := by
  induction s generalizing t with
  | nil =>
    obtain rfl := List.length_eq_zero_iff.mp h.symm
    simp [xorBits, polyOf]
  | cons x s ih =>
    cases t with
    | nil => cases h
    | cons y t =>
      have hlen : s.length = t.length := Nat.succ.inj h
      have hbit : (C (if (x ^^ y) then 1 else 0) : (ZMod 2)[X]) =
          C (if x then 1 else 0) + C (if y then 1 else 0) := by
        cases x <;> cases y <;> simp [CharTwo.add_self_eq_zero]
      have hxor : xorBits (x :: s) (y :: t) = (x ^^ y) :: xorBits s t := rfl
      rw [hxor, polyOf_cons, polyOf_cons, polyOf_cons, ih hlen, hbit, xorBits_length, hlen, Nat.min_self]
      ring

theorem degree_polyOf_lt (s : Bits) : (polyOf s).degree < s.length := by
  induction s with
  | nil => simp [polyOf]
  | cons x s ih =>
    rw [polyOf_cons, List.length_cons]
    have hlt : (s.length : WithBot Nat) < (s.length + 1 : Nat) := by exact_mod_cast s.length.lt_succ_self
    exact (degree_add_le _ _).trans_lt
      (max_lt ((degree_C_mul_X_pow_le _ _).trans_lt hlt) (ih.trans hlt))

section Divisor

variable {g : Bits}

/-- A polynomial of k bits that begins with '1' is `x^(k-1)` and lower terms (44_crc_divider.md R108). -/
theorem polyOf_divisor (hg : g.head? = some true) :
    ∃ h : Bits, h.length = g.length - 1 ∧ polyOf g = X ^ h.length + polyOf h := by
  obtain ⟨h, rfl⟩ := List.head?_eq_some_iff.mp hg
  exact ⟨h, rfl, by simp [polyOf_cons]⟩

theorem monic_polyOf (hg : g.head? = some true) : (polyOf g).Monic := by
  obtain ⟨h, -, hpoly⟩ := polyOf_divisor hg
  rw [hpoly]
  exact monic_X_pow_add (degree_polyOf_lt h)

theorem degree_polyOf (hg : g.head? = some true) : (polyOf g).degree = (g.length - 1 : Nat) := by
  obtain ⟨h, hlen, hpoly⟩ := polyOf_divisor hg
  rw [hpoly, degree_add_eq_left_of_degree_lt (by simpa using degree_polyOf_lt h), degree_X_pow, hlen]

end Divisor

/-! ### One XOR of the scan -/

theorem getElem?_eq_some_getD {scr : Bits} {pos : Nat} (h : pos < scr.length) :
    scr[pos]? = some (scr.getD pos false) := by
  rw [List.getD_eq_getElem _ _ h, List.getElem?_eq_getElem h]

theorem length_pos_of_head? {g : Bits} {x : Bool} (hg : g.head? = some x) : 0 < g.length :=
  List.length_pos_of_mem (List.mem_of_head? hg)

theorem head?_xorBits {s t : Bits} {x y : Bool} (hs : s.head? = some x) (ht : t.head? = some y) :
    (xorBits s t).head? = some (x ^^ y) := by
  rw [xorBits, List.head?_zipWith, hs, ht]

section Window

variable {g scr : Bits} {pos : Nat} (hfits : pos + g.length ≤ scr.length)
include hfits

theorem window_length : (window scr pos g.length).length = g.length := by
  rw [window, sub_length]
  omega

theorem windowAfter_length : (windowAfter g scr pos).length = g.length := by
  rw [windowAfter, xorBits_length, window_length hfits, Nat.min_self]

/-- The window begins with the bit the scan looks at. -/
theorem head?_window (hg : g.head? = some true) (hbit : scr.getD pos false = true) :
    (window scr pos g.length).head? = some true := by
  have hpos := length_pos_of_head? hg
  rw [window, sub, List.head?_drop, List.getElem?_take_of_lt (by omega),
    getElem?_eq_some_getD (by omega), hbit]

/-- An XOR clears the leading bit of its window (44_crc_divider.md R110 item 1). -/
theorem head?_windowAfter (hg : g.head? = some true) (hbit : scr.getD pos false = true) :
    (windowAfter g scr pos).head? = some false :=
  head?_xorBits (head?_window hfits hg hbit) hg

theorem take_succ_xorAt (hg : g.head? = some true) (hbit : scr.getD pos false = true) :
    (xorAt g scr pos).take (pos + 1) = scr.take pos ++ [false] := by
  obtain ⟨after, hafter⟩ := List.head?_eq_some_iff.mp (head?_windowAfter hfits hg hbit)
  have hlen : (scr.take pos ++ [false]).length = pos + 1 := by
    rw [List.length_append, List.length_take, List.length_singleton]
    omega
  rw [xorAt, hafter, sub, List.drop_zero, List.append_assoc, List.cons_append, List.append_cons,
    List.take_left' hlen]

/-- An XOR adds a multiple of the divisor to the polynomial SCR spells. -/
theorem polyOf_xorAt :
    polyOf (xorAt g scr pos) = polyOf scr + polyOf g * X ^ (scr.length - (pos + g.length)) := by
  have hscr : scr = scr.take pos ++ window scr pos g.length ++ scr.drop (pos + g.length) := by
    rw [window, take_append_sub _ (Nat.le_add_right _ _), List.take_append_drop]
  have hwindow : polyOf (windowAfter g scr pos) = polyOf (window scr pos g.length) + polyOf g :=
    polyOf_xorBits (window_length hfits)
  have hbefore : polyOf scr = _ := congrArg polyOf hscr
  rw [polyOf_append, polyOf_append, window_length hfits, List.length_drop] at hbefore
  rw [hbefore, xorAt, sub, List.drop_zero, polyOf_append, polyOf_append, hwindow,
    windowAfter_length hfits, List.length_drop]
  ring

end Window

/-! ### The scan -/

/-- What is true of SCR when the scan of the dividend `d` stands at `pos` (44_crc_divider.md R110): the bits
before `pos` are zeros, and SCR spells the dividend's polynomial up to a multiple of the divisor's. -/
structure Scanned (d g : Bits) (pos : Nat) (scr : Bits) : Prop where
  length : scr.length = d.length
  cleared : scr.take pos = zeros pos
  residue : polyOf g ∣ polyOf scr - polyOf d

theorem Scanned.start (d g : Bits) : Scanned d g 0 d := ⟨rfl, rfl, by simp⟩

/-- Where the bit is '1' the scan XORs and records (44_crc_divider.md R109). -/
theorem scan_succ_of_one (g : Bits) (count : Nat) {pos : Nat} {scr : Bits}
    (hbit : scr.getD pos false = true) :
    scan g (count + 1) pos scr = ((scan g count (pos + 1) (xorAt g scr pos)).1,
      xorRecord g scr pos :: (scan g count (pos + 1) (xorAt g scr pos)).2) :=
  if_pos hbit

/-- Where the bit is '0' the scan goes on. -/
theorem scan_succ_of_zero (g : Bits) (count : Nat) {pos : Nat} {scr : Bits}
    (hbit : scr.getD pos false = false) :
    scan g (count + 1) pos scr = scan g count (pos + 1) scr :=
  if_neg (Bool.not_eq_true _ ▸ hbit)

section Scan

variable {d g scr : Bits} {pos count : Nat} {x : TraceRec}

theorem Scanned.xorAt (h : Scanned d g pos scr) (hg : g.head? = some true)
    (hfits : pos + g.length ≤ d.length) (hbit : scr.getD pos false = true) :
    Scanned d g (pos + 1) (xorAt g scr pos) := by
  rw [← h.length] at hfits
  refine ⟨(xorAt_length hfits).trans h.length, ?cleared, ?residue⟩
  case cleared =>
    rw [take_succ_xorAt hfits hg hbit, h.cleared, zeros, zeros, List.replicate_succ']
  case residue =>
    rw [polyOf_xorAt hfits, add_sub_right_comm]
    exact dvd_add h.residue (dvd_mul_right _ _)

theorem Scanned.skip (h : Scanned d g pos scr) (hpos : pos < d.length)
    (hbit : scr.getD pos false = false) : Scanned d g (pos + 1) scr := by
  refine ⟨h.length, ?_, h.residue⟩
  rw [List.take_add_one, getElem?_eq_some_getD (h.length ▸ hpos), hbit, h.cleared, zeros, zeros,
    List.replicate_succ']
  rfl

/-- The scan of `count` more positions whose windows fit, with the divisor's first bit '1'. -/
theorem Scanned.scan (h : Scanned d g pos scr) (hg : g.head? = some true)
    (hfits : pos + count + g.length ≤ d.length + 1) :
    Scanned d g (pos + count) (scan g count pos scr).1 := by
  induction count generalizing pos scr with
  | zero => exact h
  | succ count ih =>
    have hpos := length_pos_of_head? hg
    rw [show pos + (count + 1) = pos + 1 + count by omega]
    cases hbit : scr.getD pos false with
    | true =>
      rw [scan_succ_of_one g count hbit]
      exact ih (h.xorAt hg (by omega) hbit) (by omega)
    | false =>
      rw [scan_succ_of_zero g count hbit]
      exact ih (h.skip (by omega) hbit) (by omega)

/-- Every record of the scan is of an XOR at a position whose bit is '1' and whose window fits. -/
theorem mem_scan_of_fits (hfits : pos + count + g.length ≤ scr.length + 1)
    (hx : x ∈ (scan g count pos scr).2) :
    ∃ q scr', q + g.length ≤ scr.length ∧ scr'.length = scr.length ∧ scr'.getD q false = true ∧
      x = xorRecord g scr' q := by
  induction count generalizing pos scr with
  | zero => cases hx
  | succ count ih =>
    have hwindow : pos + g.length ≤ scr.length := by omega
    cases hbit : scr.getD pos false with
    | true =>
      rw [scan_succ_of_one g count hbit] at hx
      rcases List.mem_cons.mp hx with rfl | hx
      · exact ⟨pos, scr, hwindow, rfl, hbit, rfl⟩
      · rw [← xorAt_length hwindow] at hfits ⊢
        exact ih (by omega) hx
    | false =>
      rw [scan_succ_of_zero g count hbit] at hx
      exact ih (by omega) hx

/-- The records carry positions of the scan, in its order (44_crc_divider.md R109). -/
theorem scan_positions_sublist (g : Bits) (count pos : Nat) (scr : Bits) :
    ((scan g count pos scr).2.map fun x => x.numbers.headD 0).Sublist (List.range' pos count) := by
  induction count generalizing pos scr with
  | zero => exact .slnil
  | succ count ih =>
    rw [List.range'_succ]
    cases hbit : scr.getD pos false with
    | true =>
      rw [scan_succ_of_one g count hbit]
      exact (ih ..).cons_cons pos
    | false =>
      rw [scan_succ_of_zero g count hbit]
      exact (ih ..).cons pos

end Scan

/-! ### The division -/

section Division

variable {d g : Bits} (hd : g.length - 1 ≤ d.length)
include hd

theorem xorDivide_remainder_length :
    (xorDivide d g).1.length = g.length - 1 := by
  rw [xorDivide, trailing, List.length_drop, scanAll_length]
  omega

theorem scanned_scanAll (hg : g.head? = some true) :
    Scanned d g (scanCount d g) (scanAll d g).1 := by
  have h := (Scanned.start d g).scan (count := scanCount d g) hg (by unfold scanCount; omega)
  rwa [Nat.zero_add] at h

/-- SCR ends as zeros and the remainder (44_crc_divider.md R110 item 2). -/
theorem scanAll_eq_zeros_append (hg : g.head? = some true) :
    (scanAll d g).1 = zeros (scanCount d g) ++ (xorDivide d g).1 := by
  have hpos := length_pos_of_head? hg
  have hcut : (scanAll d g).1.length - (g.length - 1) = scanCount d g := by
    rw [scanAll_length, scanCount]
    omega
  rw [← (scanned_scanAll hd hg).cleared, xorDivide, trailing, hcut, List.take_append_drop]

/-- The remainder differs from the dividend by a multiple of the divisor and has lower degree. -/
theorem polyOf_xorDivide (hg : g.head? = some true) :
    polyOf (xorDivide d g).1 = polyOf d %ₘ polyOf g := by
  have hmonic := monic_polyOf hg
  have hscr : polyOf (scanAll d g).1 = polyOf (xorDivide d g).1 := by
    rw [scanAll_eq_zeros_append hd hg, polyOf_append, polyOf_zeros, zero_mul, zero_add]
  have hdegree : (polyOf (xorDivide d g).1).degree < (polyOf g).degree := by
    rw [degree_polyOf hg, ← xorDivide_remainder_length hd]
    exact degree_polyOf_lt _
  have hresidue := (scanned_scanAll hd hg).residue
  rw [hscr] at hresidue
  calc polyOf (xorDivide d g).1
    _ = polyOf (xorDivide d g).1 %ₘ polyOf g := ((modByMonic_eq_self_iff hmonic).mpr hdegree).symm
    _ = polyOf d %ₘ polyOf g := modByMonic_eq_of_dvd_sub hmonic hresidue

end Division

/-! ### The obligations -/

/-- Settles O46: the remainder and SCR by what the scan keeps, the records by the windows that fit, their
number and order because they carry positions of the scan in its order. -/
theorem xorDivideClearsScannedBits : Obligations.XorDivideClearsScannedBits := by
  intro d g hk hg hd
  have hsub := scan_positions_sublist g (scanCount d g) 0 d
  refine ⟨xorDivide_remainder_length hd, scanAll_eq_zeros_append hd hg, ?number, fun x hx => ?record,
    (List.pairwise_lt_range' 1).sublist hsub⟩
  case number =>
    have hnumber := hsub.length_le
    rwa [List.length_map, List.length_range'] at hnumber
  case record =>
    obtain ⟨q, scr, hq, hlen, hbit, rfl⟩ := mem_scan_of_fits (by unfold scanCount; omega) hx
    have hfits : q + g.length ≤ scr.length := by omega
    exact ⟨q, window scr q g.length, windowAfter g scr q, rfl, window_length hfits,
      head?_window hfits hg hbit, rfl, head?_windowAfter hfits hg hbit, hq⟩

/-- Settles O47: the scan keeps the residue modulo the divisor, and the remainder is below its degree. -/
theorem remainderIsPolynomialRemainder : Obligations.RemainderIsPolynomialRemainder :=
  fun _ _ _ hg hd => ⟨polyOf_xorDivide hd hg, xorDivide_remainder_length hd⟩

/-- Settles O32: the check accepts the operands, and SCR is that of the division, which scans one position
per bit of the data. -/
theorem crcEncResult : Obligations.CrcEncResult := by
  intro pk n s p g hraw hg0 hp hk hg a r
  have hcheck : check .crcEnc n s.raw s.g0 = .ok p g := by
    rw [hraw, hg0]
    exact check_crc_ok rfl hp hk hg nofun
  have hlen : a.length = p.length + (g.length - 1) := by simp [a]
  have hcount : scanCount a g = p.length := by
    rw [scanCount, hlen]
    omega
  refine ⟨(scanAll a g).1, ?completes, ?scratch⟩
  case completes =>
    rw [exec_of_check_ok (i := .crcEnc pk n) hcheck, ← hcount]
    rfl
  case scratch =>
    rw [scanAll_eq_zeros_append (by omega) hg, hcount]
    rfl

end Sys2Proof.Machine
end

section
/-!
PROOFS. The verify operations: the flags compared with received bits (45_verify_reduce_and_predicate.md R121,
R123, R127), the state each operation completes in, and when the checksum and the CRC find a frame valid
(R124, R128).
-/

namespace Sys2Proof.Machine

/-! ### The verdict on accepted operands -/

theorem verdictOf_of_check_ok {i : Instr} {s : State} {p g : Bits}
    (h : check i.op i.blockSize s.raw s.g0 = .ok p g) :
    verdictOf i s = (operate i p g s.work).result.isValid := by
  rw [verdictOf, responseOf_eq_response, h]
  rfl

/-! ### PAR.VER -/

theorem chunkData_eq_dropLast (c : Bits) : chunkData c = c.dropLast := by
  rw [chunkData, sub, List.drop_zero, List.dropLast_eq_take]

theorem chunkParity_eq_getLast? (c : Bits) : chunkParity c = c.getLast?.getD false := by
  rw [chunkParity, List.getD_eq_getElem?_getD, List.getLast?_eq_getElem?]

/-- Settles O27: the check accepts the frame, and each chunk's data and received bit are all its bits but the
last, and the last. -/
theorem parVerResult : Obligations.ParVerResult := by
  intro pk n s f hraw hf hn
  rw [exec_sized (i := .parVer pk n) rfl hn hf hraw, operate, parVer]
  simp only [parityValid, parVerRecord, chunkOk, chunkData_eq_dropLast, chunkParity_eq_getLast?]
  rfl

/-! ### CSUM.VER -/

theorem bin_two_pow_sub_one (n : Nat) : bin (2 ^ n - 1) n = ones n := by
  refine List.ext_getElem (by simp) fun i hi _ => ?_
  rw [bin_length] at hi
  simp [bin, ones, Nat.testBit_two_pow_sub_one, Nat.sub_one_sub_lt_of_lt hi]

/-- A sum of n bits is all ones as a number where it is all ones as a string
(45_verify_reduce_and_predicate.md R123). -/
theorem checksumValid_eq_bin_beq_ones {r n : Nat} (hr : r < 2 ^ n) :
    checksumValid r n = (bin r n == ones n) := by
  have hmax : 2 ^ n - 1 < 2 ^ n := Nat.sub_one_lt_of_lt (Nat.two_pow_pos n)
  rw [checksumValid, Bool.eq_iff_iff, beq_iff_eq, beq_iff_eq, ← bin_two_pow_sub_one]
  refine ⟨congrArg (bin · n), fun h => ?_⟩
  rw [← val_bin hr, h, val_bin hmax]

theorem fold_splitBlocks_isOnesSum {f : Bits} {n : Nat} (hf : f ≠ []) (hn : 0 < n) :
    IsOnesSum n ((splitBlocks f n).map val).sum (fold (splitBlocks f n) n).1 :=
  fold_isOnesSum fun _ => length_of_mem_splitBlocks hf hn

/-- Settles O29: the check accepts the frame, and the folded sum has n bits. -/
theorem csumVerResult : Obligations.CsumVerResult := by
  intro pk n s f hraw hf hn
  have hsum := fold_splitBlocks_isOnesSum hf (n := n.toNat) (by omega)
  rw [exec_sized (i := .csumVer pk n) rfl hn hf hraw, operate, csumVer,
    checksumValid_eq_bin_beq_ones hsum.lt]
  rfl

/-- Of the two representatives of zero modulo 2^n - 1, a sum takes the all-ones one unless the total is 0
(42_checksum_encoder.md R99). -/
theorem IsOnesSum.eq_max_iff {n t r : Nat} (hn : 1 ≤ n) (h : IsOnesSum n t r) :
    r = 2 ^ n - 1 ↔ r ≠ 0 ∧ 2 ^ n - 1 ∣ t := by
  have hpow : 2 ≤ 2 ^ n := Nat.le_self_pow (Nat.ne_of_gt hn) 2
  rw [← h.modEq.dvd_iff dvd_rfl]
  constructor
  · rintro rfl
    exact ⟨by omega, dvd_rfl⟩
  · rintro ⟨hr, hdvd⟩
    exact le_antisymm (Nat.le_pred_of_lt h.lt) (Nat.le_of_dvd (Nat.pos_of_ne_zero hr) hdvd)

/-- Settles O52: the fold is congruent to the total, and it is 0 only for blocks that are all zero. -/
theorem csumVerValidIffTotalIsMultiple : Obligations.CsumVerValidIffTotalIsMultiple := by
  intro pk n s f hraw hf hn
  have hsize : 1 ≤ n.toNat := by omega
  refine ⟨_, verdictOf_of_check_ok (check_sized rfl hn hf hraw), ?_⟩
  rw [checksumValid, beq_iff_eq, (fold_splitBlocks_isOnesSum hf hsize).eq_max_iff hsize,
    fold_ne_zero_iff fun _ => length_of_mem_splitBlocks hf hsize]

/-! ### LRC.VER -/

/-- Settles O31: the check accepts the stripped frame, and `lrcVer` counts the columns of its rows. -/
theorem lrcVerResult : Obligations.LrcVerResult := by
  intro pk n s f hraw hf hn
  rw [exec_sized (i := .lrcVer pk n) rfl hn hf hraw, operate, lrcVer]
  simp only [lrcValid, lrcVerRecord, columnOk, afterColumns, columnCount_eq_countP_getElem?]
  rfl

/-! ### CRC.VER -/

theorem eq_zeros_iff {r : Bits} {w : Nat} (hr : r.length = w) : r = zeros w ↔ ∀ b ∈ r, b = false := by
  rw [zeros, List.eq_replicate_iff, and_iff_right hr]

/-- A remainder as long as it should be is all zeros where each of its bits is
(45_verify_reduce_and_predicate.md R127). -/
theorem crcValid_eq_decide {r g : Bits} (hr : r.length = g.length - 1) :
    crcValid r g = decide (∀ b ∈ r, b = false) := by
  rw [crcValid, Bool.eq_iff_iff, beq_iff_eq, decide_eq_true_iff, eq_zeros_iff hr]

/-- Only a string of zeros spells the zero polynomial. -/
theorem polyOf_eq_zero_iff {s : Bits} : polyOf s = 0 ↔ s = zeros s.length := by
  refine ⟨fun h => ?_, fun h => h ▸ polyOf_zeros _⟩
  induction s with
  | nil => rfl
  | cons x s ih =>
    cases x with
    | true => exact absurd h (monic_polyOf rfl).ne_zero
    | false =>
      rw [polyOf_cons] at h
      exact congrArg (false :: ·) (ih (by simpa using h))

theorem check_crcVer_ok {n : Int} {s : State} {f g : Bits} (hraw : s.raw = binary f)
    (hg0 : s.g0 = binary g) (hf : f ≠ []) (hk : 2 ≤ g.length) (hg : g.head? = some true)
    (hlen : g.length - 1 ≤ f.length) : check .crcVer n s.raw s.g0 = .ok f g := by
  rw [hraw, hg0]
  exact check_crc_ok rfl hf hk hg fun _ => hlen

/-- Settles O33: the check accepts the operands, the remainder has k - 1 bits, and SCR is that of the
division. -/
theorem crcVerResult : Obligations.CrcVerResult := by
  intro pk n s f g hraw hg0 hf hk hg hlen
  refine ⟨(scanAll f g).1, ?completes, scanAll_eq_zeros_append hlen hg⟩
  case completes =>
    rw [exec_of_check_ok (i := .crcVer pk n) (check_crcVer_ok hraw hg0 hf hk hg hlen), operate, crcVer,
      crcValid_eq_decide (xorDivide_remainder_length hlen)]
    rfl

/-- Settles O53: the verdict says that the remainder is zeros, which spell the zero polynomial, and the
remainder is zero where the divisor divides. -/
theorem crcVerValidIffMultipleOfPolynomial : Obligations.CrcVerValidIffMultipleOfPolynomial := by
  intro pk n s f g hraw hg0 hf hk hg hlen
  refine ⟨_, verdictOf_of_check_ok (check_crcVer_ok hraw hg0 hf hk hg hlen), ?_⟩
  calc crcValid (xorDivide f g).1 g = true
    _ ↔ polyOf (xorDivide f g).1 = 0 := by
      rw [crcValid, beq_iff_eq, polyOf_eq_zero_iff, xorDivide_remainder_length hlen]
    _ ↔ polyOf f %ₘ polyOf g = 0 := by rw [polyOf_xorDivide hlen hg]
    _ ↔ polyOf g ∣ polyOf f := Polynomial.modByMonic_eq_zero_iff_dvd (monic_polyOf hg)

end Sys2Proof.Machine
end

section
/-!
PROOFS. What the check guarantees of the operands it accepts (60_exceptions.md R147), the sizes of responses
(46_properties.md R139), and the two counterexamples to single-flip detection (R133).
-/

namespace Sys2Proof.Machine

/-! ### What the check has made sure of -/

section Accepted

variable {op : Op} {n : Int} {raw g0 : List Symbol} {p g : Bits} (h : check op n raw g0 = .ok p g)
include h

theorem validate_of_check_ok : validate raw op.isLrc = true := by
  by_contra hv
  simp [check, hv] at h

/-- The bits of an accepted payload are those of the symbols that count. -/
theorem payload_of_check_ok : (if op.isLrc then strip raw else raw) = binary p := by
  obtain ⟨-, hall⟩ := (validate_iff raw op.isLrc).mp (validate_of_check_ok h)
  rw [(operands_of_check_ok h).1, binary_bitsOf hall]

theorem ne_nil_of_check_ok : p ≠ [] := by
  obtain ⟨hne, -⟩ := (validate_iff raw op.isLrc).mp (validate_of_check_ok h)
  rwa [payload_of_check_ok h, Ne, binary_eq_nil] at hne

/-- An accepted polynomial has at least two bits. -/
theorem two_le_length_of_check_ok (hcrc : op.isCrc = true) : 2 ≤ g.length := by
  rw [(lengths_of_check_crc_ok h hcrc).2]
  by_contra hshort
  rw [not_le] at hshort
  simp only [check, hcrc, hshort, and_self, if_true] at h
  split_ifs at h

/-- An accepted frame of CRC.VER is not shorter than a remainder (60_exceptions.md R151). -/
theorem remainder_le_of_check_ok (hver : op = .crcVer) : g.length - 1 ≤ p.length := by
  subst hver
  simp only [check, Op.isLrc, Op.isCrc, Bool.false_eq_true, if_false, if_true, true_and] at h
  split_ifs at h with _ _ _ _ _ hshort
  cases h
  exact not_lt.mp hshort

end Accepted

/-! ### Frame and verdict on accepted operands -/

theorem responseOf_of_check_ok {i : Instr} {s : State} {p g : Bits}
    (h : check i.op i.blockSize s.raw s.g0 = .ok p g) :
    responseOf i s = some (.ok (operate i p g s.work).result (operate i p g s.work).trace) := by
  rw [responseOf_eq_response, h]
  rfl

theorem frameOf_of_check_ok {i : Instr} {s : State} {p g : Bits}
    (h : check i.op i.blockSize s.raw s.g0 = .ok p g) :
    frameOf i s = (operate i p g s.work).result.frame := by
  rw [frameOf, responseOf_of_check_ok h]
  rfl

section Sized

variable {i : Instr} {s : State} {p : Bits} (hcrc : i.op.isCrc = false) (hn : 1 ≤ i.blockSize)
  (hp : p ≠ []) (hraw : (if i.op.isLrc then strip s.raw else s.raw) = binary p)
include hcrc hn hp hraw

theorem responseOf_sized :
    responseOf i s = some (.ok (operate i p [] s.work).result (operate i p [] s.work).trace) :=
  responseOf_of_check_ok (check_sized hcrc hn hp hraw)

theorem frameOf_sized : frameOf i s = (operate i p [] s.work).result.frame :=
  frameOf_of_check_ok (check_sized hcrc hn hp hraw)

theorem verdictOf_sized : verdictOf i s = (operate i p [] s.work).result.isValid :=
  verdictOf_of_check_ok (check_sized hcrc hn hp hraw)

end Sized

/-- A verdict is given on operands the check has accepted. -/
theorem check_of_verdictOf {i : Instr} {s : State} {v : Bool} (h : verdictOf i s = some v) :
    ∃ p g, check i.op i.blockSize s.raw s.g0 = .ok p g := by
  rw [verdictOf, responseOf_eq_response] at h
  cases hcheck : check i.op i.blockSize s.raw s.g0 with
  | ok p g => exact ⟨p, g, rfl⟩
  | error | refused => rw [hcheck] at h; cases h

/-- A verdict is given on a frame that is not empty. -/
theorem ne_nil_of_verdictOf {i : Instr} {s : State} {v : Bool} {f : Bits} (h : verdictOf i s = some v)
    (hraw : (if i.op.isLrc then strip s.raw else s.raw) = binary f) : f ≠ [] := by
  obtain ⟨p, g, hcheck⟩ := check_of_verdictOf h
  have hp := ne_nil_of_check_ok hcheck
  rwa [Ne, ← binary_eq_nil, ← payload_of_check_ok hcheck, hraw, binary_eq_nil] at hp

/-! ### Sizes -/

theorem parityFrame_length (pk : ParityKind) (blocks : List Bits) :
    (parityFrame pk blocks).length = blocks.flatten.length + blocks.length := by
  induction blocks with
  | nil => rfl
  | cons b bs ih =>
    have hcons : parityFrame pk (b :: bs) = b ++ [parityBit b pk] ++ parityFrame pk bs := rfl
    rw [hcons, List.length_append, ih, List.flatten_cons]
    simp only [List.length_append, List.length_cons, List.length_nil]
    omega

theorem xorDivide_trace_length_le (d g : Bits) : (xorDivide d g).2.length ≤ d.length + 1 - g.length := by
  have hsub := (scan_positions_sublist g (scanCount d g) 0 d).length_le
  rwa [List.length_map, List.length_range'] at hsub

section Sizes

variable {p : Bits} {n : Nat} (hp : p ≠ []) (hn : 0 < n) (w : Work)
include hp hn

theorem flatten_slice : (slice p n).flatten = p := by
  obtain ⟨-, hflat, -⟩ := sliceCutsWithoutPadding p n hp hn
  exact hflat

theorem splitBlocks_length_eq_ceilDiv : (splitBlocks p n).length = ceilDiv p.length n :=
  (splitBlocksPadsOnTheRight p n hp hn).1

theorem flatten_splitBlocks_of_dvd (hdvd : n ∣ p.length) : (splitBlocks p n).flatten = p := by
  obtain ⟨-, -, -, -, hflat⟩ := splitBlocksPadsOnTheRight p n hp hn
  exact hflat hdvd

theorem flatten_splitBlocks_length : (splitBlocks p n).flatten.length = ceilDiv p.length n * n := by
  obtain ⟨m, hm, -, hend⟩ := exists_ceilDiv_eq_succ (List.length_pos_iff.mpr hp) hn
  rw [flatten_splitBlocks hp hn, List.length_append, zeros_length, hm]
  omega

theorem parEnc_frame_length (pk : ParityKind) :
    (parEnc p n pk w).result.frame.map List.length = some (p.length + ceilDiv p.length n) := by
  change some (parityFrame pk (slice p n)).length = _
  rw [parityFrame_length, flatten_slice hp hn, slice_length]

theorem csumEnc_sizes :
    (csumEnc p n w).result.frame.map List.length = some ((ceilDiv p.length n + 1) * n) ∧
      (csumEnc p n w).trace.length = ceilDiv p.length n := by
  refine ⟨congrArg some ?frame, ?trace⟩
  case frame =>
    rw [List.length_append, flatten_splitBlocks_length hp hn, bin_length, Nat.succ_mul]
  case trace =>
    simp only [csumEnc, List.length_append, fold_trace_length, List.length_singleton]
    rw [splitBlocks_length, Nat.add_sub_cancel, ← splitBlocks_length, splitBlocks_length_eq_ceilDiv hp hn]

theorem csumVer_trace_length : (csumVer p n w).trace.length = ceilDiv p.length n - 1 := by
  simp only [csumVer, fold_trace_length, splitBlocks_length_eq_ceilDiv hp hn]

theorem lrcEnc_frame_length :
    (lrcEnc p n w).result.frame.map List.length = some ((ceilDiv p.length n + 1) * n) := by
  refine congrArg some ?_
  rw [List.length_append, flatten_splitBlocks_length hp hn, lrcOf_length, Nat.succ_mul]

end Sizes

theorem crcEnc_sizes {p g : Bits} (hg : 0 < g.length) (w : Work) :
    (crcEnc p g w).result.frame.map List.length = some (p.length + g.length - 1) ∧
      (crcEnc p g w).trace.length ≤ p.length := by
  have ha : (p ++ zeros (g.length - 1)).length = p.length + (g.length - 1) := by simp
  refine ⟨congrArg some ?frame, (xorDivide_trace_length_le _ g).trans (by omega)⟩
  case frame =>
    rw [List.length_append, xorDivide_remainder_length (by omega)]
    omega

/-- Settles O34: the loops emit a record per block, addition or column, and the division at most one per
position it scans; a frame is made of the blocks and the check values. -/
theorem responseSizes : Obligations.ResponseSizes := by
  intro i s r tr hresp
  obtain ⟨p, g, hcheck, rfl, rfl⟩ := check_of_responseOf_ok hresp
  have hp : p ≠ [] := ne_nil_of_check_ok hcheck
  have hn (hcrc : i.op.isCrc = false) : 0 < i.blockSize.toNat :=
    Int.lt_toNat.mpr (blockSize_pos_of_check_ok hcheck hcrc)
  have hg (hcrc : i.op.isCrc = true) : g.length = s.g0.length ∧ 0 < g.length :=
    ⟨(lengths_of_check_crc_ok hcheck hcrc).2,
      Nat.zero_lt_of_lt (two_le_length_of_check_ok hcheck hcrc)⟩
  rw [payloadOf, payload_of_check_ok hcheck, binary_length]
  cases i with
  | parEnc pk n =>
    exact ⟨parEnc_frame_length hp (hn rfl) _ pk, by simp [operate, parEnc, Instr.blockSize]⟩
  | parVer pk n => exact ⟨rfl, by simp [operate, parVer, Instr.blockSize]⟩
  | csumEnc pk n => exact csumEnc_sizes hp (hn rfl) _
  | csumVer pk n => exact ⟨rfl, csumVer_trace_length hp (hn rfl) _⟩
  | lrcEnc pk n =>
    exact ⟨lrcEnc_frame_length hp (hn rfl) _, by simp [operate, lrcEnc, Instr.blockSize]⟩
  | lrcVer pk n => exact ⟨rfl, by simp [operate, lrcVer, Instr.blockSize]⟩
  | crcEnc pk n =>
    obtain ⟨hk, hpos⟩ := hg rfl
    rw [← hk]
    exact crcEnc_sizes hpos _
  | crcVer pk n =>
    rw [← (hg rfl).1]
    exact ⟨rfl, xorDivide_trace_length_le p g⟩

/-! ### Undetected flips -/

/-- Settles O59: the check accepts the operands, and the operations are evaluated on them. -/
theorem undetectedFlipsOutsideTheDomains : Obligations.UndetectedFlipsOutsideTheDomains := by
  refine ⟨fun s s' hraw hraw' => ⟨?csumEnc, ?csumVer⟩,
    fun s s' hraw hraw' hg0 hg0' => ⟨?crcEnc, ?crcVer⟩⟩
  case csumEnc =>
    exact frameOf_sized (i := .csumEnc .even 1) rfl le_rfl (by decide) hraw
  case csumVer =>
    exact verdictOf_sized (i := .csumVer .even 1) rfl le_rfl (by decide) hraw'
  case crcEnc =>
    refine frameOf_of_check_ok (i := .crcEnc .even 0) (p := [true]) (g := [true, false]) ?_
    rw [hraw, hg0]
    exact check_crc_ok rfl (by decide) (by decide) rfl nofun
  case crcVer =>
    exact verdictOf_of_check_ok (i := .crcVer .even 0)
      (check_crcVer_ok hraw' hg0' (by decide) (by decide) rfl (by decide))

end Sys2Proof.Machine
end

section
/-!
PROOFS. The checksum codec as a whole (46_properties.md R133, R136): the frame of CSUM.ENC is full blocks
whose fold is all ones, and a single flip moves the number it spells off the multiples of 2^n - 1.
-/

namespace Sys2Proof.Machine

/-! ### Strings of full rows -/

section Rows

variable {rows : List Bits} {n : Nat} (h : ∀ r ∈ rows, r.length = n)
include h

theorem map_length_rows : rows.map List.length = List.replicate rows.length n :=
  List.eq_replicate_iff.mpr ⟨List.length_map _, List.forall_mem_map.mpr h⟩

theorem flatten_rows_length : rows.flatten.length = rows.length * n := by
  rw [List.length_flatten, map_length_rows h, List.sum_replicate, smul_eq_mul]

theorem flatten_rows_ne_nil (hne : rows ≠ []) (hn : 0 < n) : rows.flatten ≠ [] := by
  rw [← List.length_pos_iff, flatten_rows_length h]
  exact Nat.mul_pos (List.length_pos_iff.mpr hne) hn

/-- Cutting a string of full rows gives the rows back. -/
theorem splitBlocks_flatten_rows (hne : rows ≠ []) (hn : 0 < n) : splitBlocks rows.flatten n = rows := by
  have hflat := flatten_rows_ne_nil h hne hn
  have hlen := flatten_rows_length h
  have hcount : (splitBlocks rows.flatten n).length = rows.length := by
    refine Nat.eq_of_mul_eq_mul_right hn ?_
    rw [splitBlocks_length_eq_ceilDiv hflat hn, ← hlen, ceilDiv_mul_of_dvd hn (hlen ▸ dvd_mul_left n _)]
  refine List.eq_iff_flatten_eq.mpr ⟨?_, ?_⟩
  · exact flatten_splitBlocks_of_dvd hflat hn (hlen ▸ dvd_mul_left n _)
  · rw [map_length_rows h, map_length_rows fun _ => length_of_mem_splitBlocks hflat hn, hcount]

end Rows

/-! ### The frame of CSUM.ENC -/

/-- The blocks of the frame of CSUM.ENC: those of the payload and the checksum (42_checksum_encoder.md
R96). -/
def csumRows (p : Bits) (n : Nat) : List Bits :=
  splitBlocks p n ++ [bin (onesComplement (fold (splitBlocks p n) n).1 n) n]

/-- A sum and its complement make all ones, with no carry (46_properties.md R136). -/
theorem fold_concat_onesComplement {blocks : List Bits} {n : Nat} (h : ∀ b ∈ blocks, b.length = n) :
    (fold (blocks ++ [bin (onesComplement (fold blocks n).1 n) n]) n).1 = 2 ^ n - 1 := by
  have hsum := fold_isOnesSum h
  have hlt := hsum.lt
  have hc := onesComplement_eq_sub hlt
  have hclt : onesComplement (fold blocks n).1 n < 2 ^ n := by omega
  have hall := fold_isOnesSum (blocks := blocks ++ [bin (onesComplement (fold blocks n).1 n) n])
    (List.forall_mem_append.mpr ⟨h, List.forall_mem_singleton.mpr (bin_length _ n)⟩)
  rw [List.map_append, List.sum_append, List.map_singleton, List.sum_singleton, val_bin hclt] at hall
  rw [hall.unique (hsum.add (.self hclt))]
  rcases addWrap_cases hlt hclt with h | h <;> omega

section CsumFrame

variable {p : Bits} {n : Nat} (hp : p ≠ []) (hn : 0 < n)

theorem csumRows_ne_nil (p : Bits) (n : Nat) : csumRows p n ≠ [] :=
  List.append_ne_nil_of_right_ne_nil _ (List.cons_ne_nil _ _)

include hp hn

theorem length_of_mem_csumRows : ∀ b ∈ csumRows p n, b.length = n :=
  List.forall_mem_append.mpr
    ⟨fun _ => length_of_mem_splitBlocks hp hn, List.forall_mem_singleton.mpr (bin_length _ n)⟩

theorem fold_csumRows : (fold (csumRows p n) n).1 = 2 ^ n - 1 :=
  fold_concat_onesComplement fun _ => length_of_mem_splitBlocks hp hn

theorem csumFrame_ne_nil : (csumRows p n).flatten ≠ [] :=
  flatten_rows_ne_nil (length_of_mem_csumRows hp hn) (csumRows_ne_nil p n) hn

theorem splitBlocks_csumFrame : splitBlocks (csumRows p n).flatten n = csumRows p n :=
  splitBlocks_flatten_rows (length_of_mem_csumRows hp hn) (csumRows_ne_nil p n) hn

/-- CSUM.VER cuts the frame into the blocks of CSUM.ENC again, whose fold is all ones. -/
theorem csumVer_csumFrame (w : Work) :
    (csumVer (csumRows p n).flatten n w).result = .csumVer (csumRows p n) (ones n) true := by
  have hvalid : checksumValid (2 ^ n - 1) n = true := beq_self_eq_true _
  simp only [csumVer, splitBlocks_csumFrame hp hn, fold_csumRows hp hn, bin_two_pow_sub_one, hvalid]

end CsumFrame

theorem frameOf_csumEnc {pk : ParityKind} {n : Int} {s : State} {p : Bits} (hraw : s.raw = binary p)
    (hp : p ≠ []) (hn : 1 ≤ n) : frameOf (.csumEnc pk n) s = some (csumRows p n.toNat).flatten := by
  rw [frameOf_sized (i := .csumEnc pk n) rfl hn hp hraw, csumRows, List.flatten_append,
    List.flatten_singleton]
  rfl

/-- Settles O49: the check accepts the frame, and CSUM.VER folds the blocks that CSUM.ENC made. -/
theorem checksumRoundTripSumIsAllOnes : Obligations.ChecksumRoundTripSumIsAllOnes := by
  intro pk pk' n s p hraw hp hn
  have hsize : 0 < n.toNat := by omega
  refine ⟨_, frameOf_csumEnc hraw hp hn, fun s' hraw' => ?_⟩
  have hne := csumFrame_ne_nil hp hsize
  rw [verdictOf_sized (i := .csumVer pk' n) rfl hn hne hraw',
    responseOf_sized (i := .csumVer pk' n) rfl hn hne hraw', operate, csumVer_csumFrame hp hsize]
  exact ⟨rfl, _, _, rfl⟩

/-! ### One flip -/

/-- A flip replaces one bit by its negation. -/
theorem exists_append_cons_flipBit {f : Bits} {i : Nat} (hi : i < f.length) :
    ∃ a x t, f = a ++ x :: t ∧ flipBit f i = a ++ (!x) :: t := by
  refine ⟨f.take i, f[i], f.drop (i + 1), ?_, ?_⟩
  · rw [List.getElem_cons_drop, List.take_append_drop]
  · rw [flipBit, List.getD_eq_getElem _ _ hi, List.set_eq_take_append_cons_drop, if_pos hi]

@[simp] theorem flipBit_length (f : Bits) (i : Nat) : (flipBit f i).length = f.length :=
  List.length_set

theorem val_append (s t : Bits) : val (s ++ t) = val s * 2 ^ t.length + val t := by
  rw [val, List.foldl_append, val_foldl]
  rfl

/-- A flip adds or takes away a power of two. -/
theorem val_flipBit {f : Bits} {i : Nat} (hi : i < f.length) :
    ∃ m, val (flipBit f i) = val f + 2 ^ m ∨ val f = val (flipBit f i) + 2 ^ m := by
  obtain ⟨a, x, t, hf, hflip⟩ := exists_append_cons_flipBit hi
  refine ⟨t.length, ?_⟩
  rw [hflip, hf, val_append, val_append, val_cons, val_cons, List.length_cons, List.length_cons]
  cases x with
  | true => right; simp; ring
  | false => left; simp; ring

/-- Blocks of n bits carry the weight 1 modulo 2^n - 1, so their total is congruent to the number they spell
together. -/
theorem val_flatten_modEq {rows : List Bits} {n : Nat} (h : ∀ r ∈ rows, r.length = n) :
    val rows.flatten ≡ (rows.map val).sum [MOD 2 ^ n - 1] := by
  induction rows with
  | nil => rfl
  | cons r rows ih =>
    obtain ⟨-, hrows⟩ := List.forall_mem_cons.mp h
    have hweight : (2 : Nat) ^ rows.flatten.length ≡ 1 [MOD 2 ^ n - 1] := by
      rw [flatten_rows_length hrows, mul_comm, pow_mul]
      simpa using (Nat.modEq_sub (Nat.one_le_two_pow (n := n))).pow rows.length
    rw [List.flatten_cons, val_append, List.map_cons, List.sum_cons]
    simpa using (hweight.mul_left (val r)).add (ih hrows)

/-- No power of two is a multiple of 2^n - 1 when that is odd and more than 1 (46_properties.md R133). -/
theorem not_two_pow_sub_one_dvd_two_pow {n : Nat} (hn : 2 ≤ n) (m : Nat) : ¬ 2 ^ n - 1 ∣ 2 ^ m := by
  intro hdvd
  have hpow : 2 ^ 2 ≤ 2 ^ n := Nat.pow_le_pow_right two_pos hn
  have heven : Even (2 ^ n) := even_two.pow_of_ne_zero (by omega)
  have hodd : Odd (2 ^ n - 1) := Nat.Even.sub_odd Nat.one_le_two_pow heven odd_one
  have hone : 2 ^ n - 1 = 1 := (hodd.coprime_two_right.pow_right m).eq_one_of_dvd hdvd
  omega

/-- Full blocks that fold to all ones spell a multiple of 2^n - 1 together. -/
theorem dvd_val_of_fold_eq {f : Bits} {n : Nat} (hf : f ≠ []) (hn : 0 < n) (hdvd : n ∣ f.length)
    (hfold : (fold (splitBlocks f n) n).1 = 2 ^ n - 1) : 2 ^ n - 1 ∣ val f := by
  have hlen : ∀ b ∈ splitBlocks f n, b.length = n := fun _ => length_of_mem_splitBlocks hf hn
  have hval := val_flatten_modEq hlen
  rw [flatten_splitBlocks_of_dvd hf hn hdvd] at hval
  rw [hval.dvd_iff dvd_rfl, ← (fold_isOnesSum hlen).modEq.dvd_iff dvd_rfl, hfold]

/-- Settles O54: the frame spells a multiple of 2^n - 1 and a flip moves it by a power of two, which is no
multiple. -/
theorem checksumDetectsSingleFlip : Obligations.ChecksumDetectsSingleFlip := by
  intro pk n s p hraw hp hn
  have hn1 : 1 ≤ n := by omega
  have hsize : 0 < n.toNat := by omega
  have hframe := splitBlocks_csumFrame hp hsize
  have hne := csumFrame_ne_nil hp hsize
  have hdvd : n.toNat ∣ (csumRows p n.toNat).flatten.length :=
    flatten_rows_length (length_of_mem_csumRows hp hsize) ▸ dvd_mul_left _ _
  refine ⟨_, frameOf_csumEnc hraw hp hn1, fun i hi s' hraw' => ?_⟩
  generalize (csumRows p n.toNat).flatten = f at *
  have hne' : flipBit f i ≠ [] := by rwa [← List.length_pos_iff, flipBit_length, List.length_pos_iff]
  rw [verdictOf_sized (i := .csumVer pk n) rfl hn1 hne' hraw']
  refine congrArg some (Bool.eq_false_iff.mpr fun hvalid => ?_)
  have hbefore := dvd_val_of_fold_eq hne hsize hdvd (hframe ▸ fold_csumRows hp hsize)
  have hafter := dvd_val_of_fold_eq hne' hsize (by rwa [flipBit_length]) (beq_iff_eq.mp hvalid)
  obtain ⟨m, hm | hm⟩ := val_flipBit hi
  · exact not_two_pow_sub_one_dvd_two_pow (by omega) m ((Nat.dvd_add_right hbefore).mp (hm ▸ hafter))
  · exact not_two_pow_sub_one_dvd_two_pow (by omega) m ((Nat.dvd_add_right hafter).mp (hm ▸ hbefore))

end Sys2Proof.Machine
end

section
/-!
PROOFS. Counting the flips at a set of places (46_properties.md R135): up to an even number they are the ones
of the one string there and the ones of the other.
-/

namespace Sys2Proof.Machine

/-- How many ones a string has at a set of places. -/
def onesAt (f : Bits) (place : Nat → Bool) : Nat :=
  (List.range f.length).countP fun i => place i && f.getD i false

@[simp] theorem onesAt_nil (place : Nat → Bool) : onesAt [] place = 0 := rfl

theorem onesAt_cons (x : Bool) (f : Bits) (place : Nat → Bool) :
    onesAt (x :: f) place = (place 0 && x).toNat + onesAt f fun i => place (i + 1) := by
  rw [onesAt, List.length_cons, List.range_succ_eq_map, List.countP_cons, List.countP_map, Nat.add_comm]
  congr 1
  cases place 0 <;> cases x <;> rfl

theorem onesAt_append (f t : Bits) (place : Nat → Bool) :
    onesAt (f ++ t) place = onesAt f place + onesAt t fun i => place (f.length + i) := by
  induction f generalizing place with
  | nil => simp
  | cons x f ih =>
    rw [List.cons_append, onesAt_cons, onesAt_cons, ih, Nat.add_assoc, List.length_cons]
    simp only [Nat.add_right_comm f.length _ 1]

theorem onesAt_eq_zero {f : Bits} {place : Nat → Bool} (h : ∀ i < f.length, place i = false) :
    onesAt f place = 0 :=
  List.countP_eq_zero.mpr fun i hi => by simp [h i (List.mem_range.mp hi)]

theorem onesAt_eq_countOnes {f : Bits} {place : Nat → Bool} (h : ∀ i < f.length, place i = true) :
    onesAt f place = countOnes f := by
  induction f generalizing place with
  | nil => rfl
  | cons x f ih =>
    rw [onesAt_cons, h 0 (Nat.succ_pos _), ih fun i hi => h (i + 1) (Nat.succ_lt_succ hi), Bool.true_and,
      ← countOnes_singleton, ← countOnes_append, List.singleton_append]

/-- The ones at the places from i up to j are those of the string cut out there. -/
theorem onesAt_eq_countOnes_sub (f : Bits) {place : Nat → Bool} {i j : Nat} (hij : i ≤ j)
    (hplace : ∀ k, place k = true ↔ i ≤ k ∧ k < j) : onesAt f place = countOnes (sub f i j) := by
  have hbefore : onesAt (f.take i) place = 0 := by
    refine onesAt_eq_zero fun k hk => Bool.eq_false_iff.mpr ?_
    rw [List.length_take] at hk
    rw [Ne, hplace]
    omega
  have hinside : onesAt (sub f i j) (fun k => place ((f.take i).length + k)) = countOnes (sub f i j) := by
    refine onesAt_eq_countOnes fun k hk => ?_
    rw [sub_length] at hk
    rw [hplace, List.length_take]
    omega
  have hafter : onesAt (f.drop j) (fun k => place ((f.take j).length + k)) = 0 := by
    refine onesAt_eq_zero fun k hk => Bool.eq_false_iff.mpr ?_
    rw [List.length_drop] at hk
    rw [Ne, hplace, List.length_take]
    omega
  calc onesAt f place
    _ = onesAt (f.take j ++ f.drop j) place := by rw [List.take_append_drop]
    _ = onesAt (f.take i ++ sub f i j) place := by
      rw [onesAt_append, hafter, Nat.add_zero, take_append_sub f hij]
    _ = countOnes (sub f i j) := by rw [onesAt_append, hbefore, hinside, Nat.zero_add]

theorem zeros_getD (w i : Nat) : (zeros w).getD i false = false := by
  rw [zeros, List.getD_eq_getElem?_getD, List.getElem?_replicate]
  split <;> rfl

theorem onesAt_zeros (w : Nat) (place : Nat → Bool) : onesAt (zeros w) place = 0 :=
  List.countP_eq_zero.mpr fun i _ => by rw [zeros_getD, Bool.and_false]; exact Bool.false_ne_true

/-- Padding adds no ones. -/
theorem onesAt_append_zeros (f : Bits) (w : Nat) (place : Nat → Bool) :
    onesAt (f ++ zeros w) place = onesAt f place := by
  rw [onesAt_append, onesAt_zeros, Nat.add_zero]

theorem countP_bne_mod_two {α : Type} (p q : α → Bool) (l : List α) :
    (l.countP fun a => p a != q a) % 2 = (l.countP p + l.countP q) % 2 := by
  induction l with
  | nil => rfl
  | cons a l ih =>
    rw [List.countP_cons, List.countP_cons, List.countP_cons]
    cases p a <;> cases q a <;> simp <;> omega

/-- A place is flipped where exactly one of the two strings has a '1'. -/
theorem flipsAt_mod_two {f f' : Bits} (hlen : f'.length = f.length) (place : Nat → Bool) :
    flipsAt f f' place % 2 = (onesAt f place + onesAt f' place) % 2 := by
  have hplace (i : Nat) : (place i && (f.getD i false != f'.getD i false)) =
      ((place i && f.getD i false) != (place i && f'.getD i false)) := by
    cases place i <;> simp
  rw [flipsAt, onesAt, onesAt, hlen, ← countP_bne_mod_two]
  simp only [hplace]

end Sys2Proof.Machine
end

section
/-!
PROOFS. The parity codec as a whole (46_properties.md R132, R135): PAR.VER cuts a frame of PAR.ENC into its
output blocks again, and a set of flips goes undetected iff every chunk holds an even number of them.
-/

namespace Sys2Proof.Machine

/-! ### Slices piece by piece -/

theorem slice_nil {w : Nat} (hw : 0 < w) : slice [] w = [] := by
  have hceil : ceilDiv 0 w = 0 := Nat.div_eq_of_lt (by omega)
  rw [slice, List.length_nil, hceil, List.range_zero, List.map_nil]

/-- What fits one piece is one piece. -/
theorem slice_of_length_le {p : Bits} {w : Nat} (hp : p ≠ []) (hle : p.length ≤ w) : slice p w = [p] := by
  have hpos := List.length_pos_iff.mpr hp
  have hceil : ceilDiv p.length w = 1 := Nat.div_eq_of_lt_le (by omega) (by omega)
  rw [slice_eq_pieces, hceil, pieces_succ, Nat.zero_add, Nat.one_mul, Nat.zero_mul, sub,
    List.take_of_length_le hle]
  rfl

/-- A full piece in front is the first piece. -/
theorem slice_append {c : Bits} {w : Nat} (p : Bits) (hc : c.length = w) (hw : 0 < w) :
    slice (c ++ p) w = c :: slice p w := by
  have hceil : ceilDiv (c ++ p).length w = ceilDiv p.length w + 1 := by
    rw [List.length_append, hc, ceilDiv, ceilDiv, Nat.add_assoc, Nat.add_sub_assoc (by omega),
      Nat.add_div_left _ hw]
  have hfirst : sub (c ++ p) (0 * w) ((0 + 1) * w) = c := by
    rw [sub, Nat.zero_mul, Nat.zero_add, Nat.one_mul, List.take_left' hc, List.drop_zero]
  have hlater (b : Nat) : sub (c ++ p) ((b + 1) * w) ((b + 1 + 1) * w) = sub p (b * w) ((b + 1) * w) := by
    subst hc
    simp only [sub, Nat.succ_mul _ c.length, Nat.add_comm _ c.length, List.take_length_add_append,
      List.drop_length_add_append]
  rw [slice_eq_pieces, slice_eq_pieces, hceil, pieces, pieces, List.range_succ_eq_map, List.map_cons,
    List.map_map, hfirst]
  exact congrArg (c :: ·) (List.map_congr_left fun b _ => hlater b)

/-- Induction along a slice: full pieces in front, and at the end what fits one piece. -/
theorem slice_induction {motive : Bits → Prop} {w : Nat} (hw : 0 < w) (nil : motive [])
    (last : ∀ p, p ≠ [] → p.length ≤ w → motive p)
    (append : ∀ c p, c.length = w → motive p → motive (c ++ p)) (p : Bits) : motive p := by
  induction hL : p.length using Nat.strong_induction_on generalizing p with
  | _ L ih =>
    by_cases hle : p.length ≤ w
    · by_cases hp : p = []
      · exact hp ▸ nil
      · exact last p hp hle
    · rw [← List.take_append_drop w p]
      refine append _ _ (List.length_take_of_le (by omega)) (ih _ ?_ _ rfl)
      rw [List.length_drop]
      omega

/-! ### The frame of PAR.ENC -/

theorem parityBlock_length (pk : ParityKind) (b : Bits) : (parityBlock pk b).length = b.length + 1 := by
  simp [parityBlock]

/-- Cutting the frame at width n + 1 gives the output blocks back (45_verify_reduce_and_predicate.md
R121). -/
theorem slice_parityFrame (pk : ParityKind) {n : Nat} (hn : 0 < n) (p : Bits) :
    slice (parityFrame pk (slice p n)) (n + 1) = (slice p n).map (parityBlock pk) := by
  induction p using slice_induction hn with
  | nil => rw [slice_nil hn]; exact slice_nil n.succ_pos
  | last p hp hle =>
    have hlen := parityBlock_length pk p
    rw [slice_of_length_le hp hle, parityFrame, List.map_singleton, List.flatten_singleton,
      slice_of_length_le (List.ne_nil_of_length_eq_add_one hlen) (by omega)]
  | append c p hc ih =>
    have hlen : (parityBlock pk c).length = n + 1 := hc ▸ parityBlock_length pk c
    rw [slice_append p hc hn, List.map_cons, ← ih, ← slice_append _ hlen n.succ_pos]
    rfl

theorem parityFrame_ne_nil {pk : ParityKind} {p : Bits} {n : Nat} (hp : p ≠ []) (hn : 0 < n) :
    parityFrame pk (slice p n) ≠ [] := by
  have hpos := List.length_pos_iff.mpr hp
  rw [← List.length_pos_iff, parityFrame_length, flatten_slice hp hn]
  omega

/-- A chunk is in order iff its 1-count has the parity its kind asks for, since exactly one of the two last
bits it can have gives it that parity (45_verify_reduce_and_predicate.md R122). -/
theorem chunkOk_iff {c : Bits} (hc : c ≠ []) (pk : ParityKind) :
    chunkOk c pk = true ↔ countOnes c % 2 = pk.bit.toNat := by
  obtain ⟨b, x, rfl⟩ := (List.eq_nil_or_concat' c).resolve_left hc
  have hown := countOnes_parityBlock_mod_two pk b
  rw [parityBlock, countOnes_append, countOnes_singleton] at hown
  rw [chunkOk, chunkData_eq_dropLast, chunkParity_eq_getLast?, List.dropLast_concat, List.getLast?_concat,
    Option.getD_some, countOnes_append, countOnes_singleton, ← hown]
  cases parityBit b pk <;> cases x <;> simp <;> omega

theorem chunkOk_parityBlock (pk : ParityKind) (b : Bits) : chunkOk (parityBlock pk b) pk = true :=
  (chunkOk_iff (List.ne_nil_of_length_eq_add_one (parityBlock_length pk b)) pk).mpr
    (countOnes_parityBlock_mod_two pk b)

/-- Settles O48: the chunks are the output blocks, whose 1-counts have the parity of their kind. -/
theorem parityRoundTrip : Obligations.ParityRoundTrip := by
  intro pk n s p hraw hp hn
  have hsize : 0 < n.toNat := by omega
  refine ⟨_, frameOf_sized (i := .parEnc pk n) rfl hn hp hraw, fun s' hraw' => ?_⟩
  rw [verdictOf_sized (i := .parVer pk n) rfl hn (parityFrame_ne_nil hp hsize) hraw']
  refine congrArg some ?_
  rw [slice_parityFrame pk hsize, parityValid, List.all_map, List.all_eq_true]
  exact fun b _ => chunkOk_parityBlock pk b

/-! ### Flips in a chunk -/

/-- The places of chunk c are those of the c-th piece. -/
theorem onesAt_chunk (f : Bits) {w : Nat} (hw : 0 < w) (c : Nat) :
    onesAt f (fun i => i / w == c) = countOnes (sub f (c * w) ((c + 1) * w)) := by
  have hsucc : (c + 1) * w = c * w + w := Nat.succ_mul c w
  refine onesAt_eq_countOnes_sub f (by omega) fun i => ?_
  rw [beq_iff_eq, Nat.div_eq_iff hw]
  omega

theorem lt_ceilDiv_iff {c L w : Nat} (hw : 0 < w) : c < ceilDiv L w ↔ c * w < L := by
  rw [← not_le, ← not_le, mul_comm]
  exact not_congr (ceilDiv_le_iff_le_mul hw)

/-- A frame is in order iff each of its chunks has a 1-count of the parity its kind asks for. -/
theorem parityValid_slice_iff {f : Bits} {w : Nat} (hw : 0 < w) (pk : ParityKind) :
    parityValid (slice f w) pk = true ↔
      ∀ c, c * w < f.length → onesAt f (fun i => i / w == c) % 2 = pk.bit.toNat := by
  rw [slice_eq_pieces, pieces, parityValid, List.all_map, List.all_eq_true]
  refine forall_congr' fun c => ?_
  rw [List.mem_range, lt_ceilDiv_iff hw, onesAt_chunk f hw]
  refine forall_congr' fun hc => chunkOk_iff ?_ pk
  have hsucc : (c + 1) * w = c * w + w := Nat.succ_mul c w
  rw [← List.length_pos_iff, sub_length]
  omega

/-- A chunk past the end of the frame has no ones. -/
theorem onesAt_chunk_eq_zero {f : Bits} {w c : Nat} (hc : f.length ≤ c * w) :
    onesAt f (fun i => i / w == c) = 0 := by
  refine onesAt_eq_zero fun i hi => beq_eq_false_iff_ne.mpr fun hic => ?_
  have hle : i / w * w ≤ i := Nat.div_mul_le_self i w
  rw [hic] at hle
  omega

/-- Settles O57: each chunk of the valid frame has a 1-count of the right parity, and that of the other
frame has it iff the two differ at an even number of places there. -/
theorem parityMissesExactlyEvenFlipsPerChunk : Obligations.ParityMissesExactlyEvenFlipsPerChunk := by
  intro pk n s s' f f' hraw hraw' hlen hn hvalid
  have hf : f ≠ [] := ne_nil_of_verdictOf hvalid hraw
  have hf' : f' ≠ [] := by rwa [← List.length_pos_iff, hlen, List.length_pos_iff]
  have hw : 0 < n.toNat + 1 := n.toNat.succ_pos
  rw [verdictOf_sized (i := .parVer pk n) rfl hn hf hraw] at hvalid
  have hones := (parityValid_slice_iff hw pk).mp (Option.some.inj hvalid)
  refine ⟨_, verdictOf_sized (i := .parVer pk n) rfl hn hf' hraw', ?_⟩
  rw [parityValid_slice_iff hw, hlen]
  refine forall_congr' fun c => ?_
  rw [flipsAt_mod_two hlen]
  by_cases hc : c * (n.toNat + 1) < f.length
  · have hchunk := hones c hc
    rw [imp_iff_right hc, ← hchunk]
    omega
  · rw [onesAt_chunk_eq_zero (not_lt.mp hc), onesAt_chunk_eq_zero (hlen ▸ not_lt.mp hc)]
    exact iff_of_true (absurd · hc) rfl

end Sys2Proof.Machine
end

section
/-!
PROOFS. The LRC codec as a whole (46_properties.md R132, R135): the LRC row makes every column of the frame of
LRC.ENC even, and a set of flips goes undetected iff every column holds an even number of them.
-/

namespace Sys2Proof.Machine

/-! ### The frame of LRC.ENC -/

theorem columnOk_eq_not_columnBit (rows : List Bits) (c : Nat) : columnOk rows c = !columnBit rows c := by
  rw [columnOk, columnBit]
  rcases Nat.mod_two_eq_zero_or_one (columnCount rows c) with h | h <;> rw [h] <;> rfl

/-- The LRC row makes its columns even (43_lrc_encoder.md R103). -/
theorem lrcValid_concat_lrcOf (rows : List Bits) (n : Nat) : lrcValid (rows ++ [lrcOf rows n]) n = true := by
  rw [lrcValid, List.all_eq_true]
  intro c hc
  rw [columnOk_eq_not_columnBit, columnBit_concat, List.getD_eq_getElem?_getD,
    lrcOf_getElem? rows (List.mem_range.mp hc), Option.getD_some, Bool.xor_self, Bool.not_false]

/-- The rows of the frame of LRC.ENC: those of the payload and the LRC row (43_lrc_encoder.md R104). -/
def lrcRows (p : Bits) (n : Nat) : List Bits := splitBlocks p n ++ [lrcOf (splitBlocks p n) n]

theorem lrcRows_ne_nil (p : Bits) (n : Nat) : lrcRows p n ≠ [] :=
  List.append_ne_nil_of_right_ne_nil _ (List.cons_ne_nil _ _)

theorem length_of_mem_lrcRows {p : Bits} {n : Nat} (hp : p ≠ []) (hn : 0 < n) :
    ∀ r ∈ lrcRows p n, r.length = n :=
  List.forall_mem_append.mpr
    ⟨fun _ => length_of_mem_splitBlocks hp hn, List.forall_mem_singleton.mpr (lrcOf_length _ n)⟩

theorem frameOf_lrcEnc {pk : ParityKind} {n : Int} {s : State} {p : Bits} (hraw : strip s.raw = binary p)
    (hp : p ≠ []) (hn : 1 ≤ n) : frameOf (.lrcEnc pk n) s = some (lrcRows p n.toNat).flatten := by
  rw [frameOf_sized (i := .lrcEnc pk n) rfl hn hp hraw, lrcRows, List.flatten_append,
    List.flatten_singleton]
  rfl

/-- Settles O50: the frame is cut into the rows of LRC.ENC again, the LRC row with them. -/
theorem lrcRoundTrip : Obligations.LrcRoundTrip := by
  intro pk pk' n s p hraw hp hn
  have hsize : 0 < n.toNat := by omega
  have hrows := length_of_mem_lrcRows hp hsize
  have hne := lrcRows_ne_nil p n.toNat
  refine ⟨_, frameOf_lrcEnc hraw hp hn, fun s' hraw' => ?_⟩
  rw [verdictOf_sized (i := .lrcVer pk' n) rfl hn (flatten_rows_ne_nil hrows hne hsize) hraw', operate,
    lrcVer, splitBlocks_flatten_rows hrows hne hsize, lrcRows, lrcValid_concat_lrcOf]
  rfl

/-! ### Flips in a column -/

/-- The one place of column c in a row of n bits is c. -/
theorem onesAt_column_row {r : Bits} {c n : Nat} (hr : r.length = n) (hc : c < n) :
    onesAt r (fun i => i % n == c) = (r.getD c false).toNat := by
  have hplace : ∀ i ∈ List.range n, ((i % n == c && r.getD i false) = true ↔
      (i == c && r.getD c false) = true) := by
    intro i hi
    rw [Nat.mod_eq_of_lt (List.mem_range.mp hi)]
    by_cases hic : i = c
    · rw [hic]
    · simp [hic]
  rw [onesAt, hr, List.countP_congr hplace]
  cases r.getD c false with
  | false => simp
  | true =>
    simp only [Bool.and_true, Bool.toNat_true]
    exact List.count_eq_one_of_mem List.nodup_range (List.mem_range.mpr hc)

/-- The places of column c in a string of full rows are those of the column. -/
theorem onesAt_column_flatten {rows : List Bits} {c n : Nat} (h : ∀ r ∈ rows, r.length = n) (hc : c < n) :
    onesAt rows.flatten (fun i => i % n == c) = columnCount rows c := by
  induction rows with
  | nil => rfl
  | cons r rows ih =>
    obtain ⟨hr, hrows⟩ := List.forall_mem_cons.mp h
    have hcount : columnCount (r :: rows) c = (r.getD c false).toNat + columnCount rows c := by
      rw [columnCount, List.countP_cons, columnCount, Nat.add_comm]
      cases r.getD c false <;> rfl
    rw [List.flatten_cons, onesAt_append, onesAt_column_row hr hc, hcount, ← ih hrows, hr]
    simp only [Nat.add_mod_left]

/-- A frame is in order iff each of its columns holds an even number of ones; the padding holds none
(45_verify_reduce_and_predicate.md R126). -/
theorem lrcValid_splitBlocks_iff {f : Bits} {n : Nat} (hf : f ≠ []) (hn : 0 < n) :
    lrcValid (splitBlocks f n) n = true ↔ ∀ c < n, onesAt f (fun i => i % n == c) % 2 = 0 := by
  rw [lrcValid, List.all_eq_true]
  refine forall_congr' fun c => ?_
  rw [List.mem_range]
  refine forall_congr' fun hc => ?_
  rw [columnOk, beq_iff_eq, ← onesAt_column_flatten (fun _ => length_of_mem_splitBlocks hf hn) hc,
    flatten_splitBlocks hf hn, onesAt_append_zeros]

/-- Settles O58: each column of the valid frame has an even number of ones, and that of the other frame has
iff the two differ at an even number of places there. -/
theorem lrcMissesExactlyEvenFlipsPerColumn : Obligations.LrcMissesExactlyEvenFlipsPerColumn := by
  intro pk n s s' f f' hraw hraw' hlen hn hvalid
  have hf : f ≠ [] := ne_nil_of_verdictOf hvalid hraw
  have hf' : f' ≠ [] := by rwa [← List.length_pos_iff, hlen, List.length_pos_iff]
  have hsize : 0 < n.toNat := by omega
  rw [verdictOf_sized (i := .lrcVer pk n) rfl hn hf hraw] at hvalid
  have hones := (lrcValid_splitBlocks_iff hf hsize).mp (Option.some.inj hvalid)
  refine ⟨_, verdictOf_sized (i := .lrcVer pk n) rfl hn hf' hraw', ?_⟩
  rw [lrcValid_splitBlocks_iff hf' hsize]
  refine forall_congr' fun c => ?_
  rw [flipsAt_mod_two hlen]
  by_cases hc : c < n.toNat
  · have hcolumn := hones c hc
    rw [imp_iff_right hc]
    omega
  · have hnone (f : Bits) : onesAt f (fun i => i % n.toNat == c) = 0 := by
      refine onesAt_eq_zero fun i _ => beq_eq_false_iff_ne.mpr fun hic => ?_
      exact hc (hic ▸ Nat.mod_lt i hsize)
    rw [hnone, hnone]
    exact iff_of_true (absurd · hc) rfl

end Sys2Proof.Machine
end

section
/-!
PROOFS. The CRC codec as a whole (46_properties.md R132 to R134): a frame of CRC.ENC spells a multiple of the
polynomial, and flips go undetected iff the polynomial they spell is a multiple too.
-/

namespace Sys2Proof.Machine

open Polynomial

/-! ### The verdict of CRC.VER -/

section Verdict

variable {pk : ParityKind} {n : Int} {s : State} {f g : Bits} (hraw : s.raw = binary f)
  (hg0 : s.g0 = binary g)
include hraw hg0

/-- A verdict is given on a frame that is not shorter than a remainder (60_exceptions.md R151). -/
theorem remainder_le_of_verdictOf {v : Bool} (h : verdictOf (.crcVer pk n) s = some v) :
    g.length - 1 ≤ f.length := by
  obtain ⟨f', g', hcheck⟩ := check_of_verdictOf h
  have hle := remainder_le_of_check_ok hcheck rfl
  obtain ⟨hf, hg⟩ := lengths_of_check_crc_ok hcheck rfl
  rwa [hf, hg, hraw, hg0, binary_length, binary_length] at hle

variable (hf : f ≠ []) (hk : 2 ≤ g.length) (hg : g.head? = some true) (hlen : g.length - 1 ≤ f.length)
include hf hk hg hlen

theorem crcVer_valid_iff : verdictOf (.crcVer pk n) s = some true ↔ polyOf g ∣ polyOf f := by
  obtain ⟨v, hv, hiff⟩ := crcVerValidIffMultipleOfPolynomial pk n s f g hraw hg0 hf hk hg hlen
  rw [hv, Option.some_inj, hiff]

theorem crcVer_invalid_iff : verdictOf (.crcVer pk n) s = some false ↔ ¬ polyOf g ∣ polyOf f := by
  obtain ⟨v, hv, hiff⟩ := crcVerValidIffMultipleOfPolynomial pk n s f g hraw hg0 hf hk hg hlen
  rw [hv, Option.some_inj, ← hiff, Bool.not_eq_true]

end Verdict

/-! ### The frame of CRC.ENC -/

/-- The frame of CRC.ENC: the data and the remainder (44_crc_divider.md R112). -/
def crcFrame (p g : Bits) : Bits := p ++ (xorDivide (p ++ zeros (g.length - 1)) g).1

theorem crcFrame_length (p g : Bits) : (crcFrame p g).length = p.length + (g.length - 1) := by
  rw [crcFrame, List.length_append, xorDivide_remainder_length (by simp)]

theorem crcFrame_ne_nil {p : Bits} (hp : p ≠ []) (g : Bits) : crcFrame p g ≠ [] :=
  List.append_ne_nil_of_left_ne_nil hp _

/-- The frame spells a multiple of the polynomial: over GF(2), adding the remainder takes it away
(44_crc_divider.md R110). -/
theorem dvd_polyOf_crcFrame (p : Bits) {g : Bits} (hg : g.head? = some true) :
    polyOf g ∣ polyOf (crcFrame p g) := by
  have hd : g.length - 1 ≤ (p ++ zeros (g.length - 1)).length := by simp
  have hframe : polyOf (crcFrame p g) =
      polyOf (p ++ zeros (g.length - 1)) - polyOf (p ++ zeros (g.length - 1)) %ₘ polyOf g := by
    rw [crcFrame, polyOf_append, xorDivide_remainder_length hd, polyOf_xorDivide hd hg, polyOf_append p,
      polyOf_zeros, zeros_length, CharTwo.sub_eq_add, add_zero]
  rw [hframe]
  exact dvd_sub_comm.mp (dvd_modByMonic_sub _ _)

theorem frameOf_crcEnc {pk : ParityKind} {n : Int} {s : State} {p g : Bits} (hraw : s.raw = binary p)
    (hg0 : s.g0 = binary g) (hp : p ≠ []) (hk : 2 ≤ g.length) (hg : g.head? = some true) :
    frameOf (.crcEnc pk n) s = some (crcFrame p g) := by
  have hcheck : check .crcEnc n s.raw s.g0 = .ok p g := by
    rw [hraw, hg0]
    exact check_crc_ok rfl hp hk hg nofun
  rw [frameOf_of_check_ok (i := .crcEnc pk n) hcheck]
  rfl

/-- Settles O51: the frame spells a multiple of the polynomial. -/
theorem crcRoundTrip : Obligations.CrcRoundTrip := by
  intro pk pk' n n' s p g hraw hg0 hp hk hg
  have hlen := crcFrame_length p g
  refine ⟨_, frameOf_crcEnc hraw hg0 hp hk hg, fun s' hraw' hg0' => ?_⟩
  exact (crcVer_valid_iff hraw' hg0' (crcFrame_ne_nil hp g) hk hg (by omega)).mpr (dvd_polyOf_crcFrame p hg)

/-! ### One flip -/

/-- A flip adds a power of x. -/
theorem polyOf_flipBit {f : Bits} {i : Nat} (hi : i < f.length) :
    ∃ m, polyOf (flipBit f i) = polyOf f + X ^ m := by
  obtain ⟨a, x, t, hf, hflip⟩ := exists_append_cons_flipBit hi
  have hbit : (C (if !x then 1 else 0) : (ZMod 2)[X]) = C (if x then 1 else 0) + 1 := by
    cases x <;> simp [CharTwo.add_self_eq_zero]
  refine ⟨t.length, ?_⟩
  rw [hflip, hf, polyOf_append, polyOf_append, polyOf_cons, polyOf_cons, hbit, List.length_cons,
    List.length_cons]
  ring

/-- A polynomial with a '1' after its first divides no power of x: the only monic divisors of one are powers
of x. -/
theorem not_polyOf_dvd_X_pow {g : Bits} (hg : g.head? = some true) (htail : true ∈ g.tail) (m : Nat) :
    ¬ polyOf g ∣ X ^ m := by
  intro hdvd
  obtain ⟨i, -, hassoc⟩ := (dvd_prime_pow prime_X m).mp hdvd
  have hpow : polyOf g = X ^ i := eq_of_monic_of_associated (monic_polyOf hg) (monic_X_pow i) hassoc
  have hdegree := degree_polyOf hg
  rw [hpow, degree_X_pow, Nat.cast_inj] at hdegree
  obtain ⟨t, rfl⟩ := List.head?_eq_some_iff.mp hg
  have htail0 : polyOf t = 0 := by
    rw [hdegree, polyOf_cons] at hpow
    simpa using hpow
  rw [List.tail_cons, polyOf_eq_zero_iff.mp htail0] at htail
  exact absurd (List.eq_of_mem_replicate htail) (by decide)

/-- Settles O55: the frame spells a multiple of the polynomial, and a flip moves it by a power of x, which is
no multiple. -/
theorem crcDetectsSingleFlip : Obligations.CrcDetectsSingleFlip := by
  intro pk n s p g hraw hg0 hp hk hg htail
  refine ⟨_, frameOf_crcEnc hraw hg0 hp hk hg, fun i hi s' hraw' hg0' => ?_⟩
  have hlen := (flipBit_length (crcFrame p g) i).trans (crcFrame_length p g)
  have hne : flipBit (crcFrame p g) i ≠ [] := by
    rw [← List.length_pos_iff]
    omega
  obtain ⟨m, hm⟩ := polyOf_flipBit hi
  rw [crcVer_invalid_iff hraw' hg0' hne hk hg (by omega), hm, dvd_add_right (dvd_polyOf_crcFrame p hg)]
  exact not_polyOf_dvd_X_pow hg htail m

/-! ### Bursts -/

theorem polyOf_append_zeros (s : Bits) (w : Nat) : polyOf (s ++ zeros w) = polyOf s * X ^ w := by
  rw [polyOf_append, polyOf_zeros, zeros_length, add_zero]

theorem polyOf_zeros_append (w : Nat) (s : Bits) : polyOf (zeros w ++ s) = polyOf s := by
  rw [polyOf_append, polyOf_zeros, zero_mul, zero_add]

/-- A polynomial that ends with '1' has no factor x. -/
theorem isCoprime_polyOf_X_pow {h : Bits} (hlast : h.getLast? = some true) (y : Nat) :
    IsCoprime (polyOf h) (X ^ y) := by
  obtain ⟨a, rfl⟩ := List.getLast?_eq_some_iff.mp hlast
  refine IsCoprime.pow_right ⟨1, -polyOf a, ?_⟩
  rw [polyOf_concat, if_pos rfl, C_1]
  ring

/-- A burst no longer than the polynomial's degree is no multiple of it, wherever it falls
(46_properties.md R134). -/
theorem not_polyOf_dvd_burst {h b : Bits} (hhead : h.head? = some true) (hlast : h.getLast? = some true)
    (hb : b.head? = some true) (hshort : b.length ≤ h.length - 1) (y : Nat) :
    ¬ polyOf h ∣ polyOf b * X ^ y := by
  intro hdvd
  have hdegree : (polyOf b).degree < (polyOf h).degree := by
    rw [degree_polyOf hhead]
    exact (degree_polyOf_lt b).trans_le (Nat.cast_le.mpr hshort)
  exact not_dvd_of_degree_lt (monic_polyOf hb).ne_zero hdegree
    ((isCoprime_polyOf_X_pow hlast y).dvd_of_dvd_mul_right hdvd)

/-- Settles O56: a burst goes undetected iff `x^y * b` is a multiple of `x^j * h`, since the frame it hits is
one. -/
theorem crcBurstDetection : Obligations.CrcBurstDetection := by
  intro pk n s s' f h b j x y hhead hlast hk hraw hg0 hvalid hflen hb _ hraw' hg0'
  have hglen : (h ++ zeros j).length = h.length + j := by simp
  have hg : (h ++ zeros j).head? = some true := by rw [List.head?_append, hhead]; rfl
  have helen : (zeros x ++ b ++ zeros y).length = f.length := by simp [hflen, Nat.add_assoc]
  have hflen' : (xorBits f (zeros x ++ b ++ zeros y)).length = f.length := by
    rw [xorBits_length, helen, Nat.min_self]
  have hf : f ≠ [] := ne_nil_of_verdictOf hvalid hraw
  have hf' : xorBits f (zeros x ++ b ++ zeros y) ≠ [] := by
    rwa [← List.length_pos_iff, hflen', List.length_pos_iff]
  have hfits := remainder_le_of_verdictOf hraw hg0 hvalid
  have hdvd := (crcVer_valid_iff hraw hg0 hf (hglen ▸ hk) hg hfits).mp hvalid
  have hburst : polyOf (h ++ zeros j) ∣ polyOf (xorBits f (zeros x ++ b ++ zeros y)) ↔
      polyOf h * X ^ j ∣ polyOf b * X ^ y := by
    rw [polyOf_xorBits helen.symm, dvd_add_right hdvd, polyOf_append_zeros, polyOf_append_zeros,
      polyOf_zeros_append]
  rw [crcVer_valid_iff hraw' (hg0'.trans hg0) hf' (hglen ▸ hk) hg (hflen' ▸ hfits),
    crcVer_invalid_iff hraw' (hg0'.trans hg0) hf' (hglen ▸ hk) hg (hflen' ▸ hfits), hburst]
  refine ⟨fun hshort hmul => ?detected, ?missed⟩
  case detected =>
    exact not_polyOf_dvd_burst hhead hlast hb (by omega) y (dvd_of_mul_right_dvd hmul)
  case missed =>
    rintro rfl hjy
    exact mul_dvd_mul_left _ (pow_dvd_pow X hjy)

end Sys2Proof.Machine
end

section
/-!
PROOFS. What the check answers and why (60_exceptions.md R143, R146, R147, R151), and from it the status or the
refusal each command ends with (R148 to R150).
-/

namespace Sys2Proof.Machine

/-! ### The tests of the check, by what the strings hold -/

theorem isBinary_iff (c : Symbol) : isBinary c = true ↔ c ≠ .sw ∧ c ≠ .sx := by
  cases c <;> decide

theorem all_isBinary_iff (t : List Symbol) : t.all isBinary = true ↔ .sw ∉ t ∧ .sx ∉ t := by
  simp only [List.all_eq_true, isBinary_iff, forall_and, ne_eq, List.forall_mem_ne']

theorem mem_strip {c : Symbol} {t : List Symbol} : c ∈ strip t ↔ c ∈ t ∧ c ≠ .sw := by
  simp [strip]

/-- Stripping removes every SW and no SX, so for the LRC operations only SX can spoil the payload. -/
theorem all_isBinary_payload_iff (raw : List Symbol) (lrc : Bool) :
    (if lrc then strip raw else raw).all isBinary = true ↔ (lrc = false → .sw ∉ raw) ∧ .sx ∉ raw := by
  rw [all_isBinary_iff]
  cases lrc <;> simp [mem_strip]

theorem any_sw_or_sx_iff (g0 : List Symbol) :
    g0.any (fun c => c == .sw || c == .sx) = true ↔ .sw ∈ g0 ∨ .sx ∈ g0 := by
  simp [and_or_left, exists_or]

/-! ### The causes -/

/-- A cause (a) to (d) of 60_exceptions.md R143. -/
def InputCause (op : Op) (raw g0 : List Symbol) : Prop :=
  (if op.isLrc then strip raw else raw) = [] ∨ .sx ∈ raw ∨ (op.isLrc = false ∧ .sw ∈ raw) ∨
    (op.isCrc = true ∧ (.sw ∈ g0 ∨ .sx ∈ g0))

/-- A cause (e) to (g) of 60_exceptions.md R143. -/
def ConfigCause (op : Op) (n : Int) (g0 : List Symbol) : Prop :=
  (op.isCrc = false ∧ n ≤ 0) ∨ (op.isCrc = true ∧ (g0.length < 2 ∨ g0.head? ≠ some .s1))

/-- The first two tests of R147 find the causes (a) to (d). -/
theorem inputCause_iff {op : Op} {raw g0 : List Symbol} :
    InputCause op raw g0 ↔
      ¬ validate raw op.isLrc ∨ (op.isCrc ∧ g0.any fun c => c == .sw || c == .sx) := by
  rw [InputCause, validate_iff, all_isBinary_payload_iff, any_sw_or_sx_iff]
  tauto

/-- The next three tests of R147 find the causes (e) to (g). -/
theorem configCause_iff {op : Op} {n : Int} {g0 : List Symbol} :
    ConfigCause op n g0 ↔
      (¬ op.isCrc ∧ n ≤ 0) ∨ (op.isCrc ∧ g0.length < 2) ∨ (op.isCrc ∧ g0.head? ≠ some .s1) := by
  rw [ConfigCause, and_or_left, Bool.not_eq_true]

/-! ### What the check answers -/

section Check

variable {op : Op} {n : Int} {raw g0 : List Symbol}

theorem check_of_inputCause (h : InputCause op raw g0) : check op n raw g0 = .error .invalidInput := by
  unfold check
  rcases inputCause_iff.mp h with hraw | hpoly
  · rw [if_pos hraw]
  · rw [if_pos hpoly, ite_self]

theorem check_of_configCause (hin : ¬ InputCause op raw g0) (h : ConfigCause op n g0) :
    check op n raw g0 = .error .invalidConfig := by
  obtain ⟨hraw, hpoly⟩ := not_or.mp (inputCause_iff.not.mp hin)
  rw [check, if_neg hraw, if_neg hpoly]
  rcases configCause_iff.mp h with hn | hlen | hhead
  · rw [if_pos hn]
  · rw [if_pos hlen, ite_self]
  · rw [if_pos hhead, ite_self, ite_self]

/-- With no cause of an error, only the length of a CRC.VER frame is left to test (R151). -/
theorem check_of_no_cause (hin : ¬ InputCause op raw g0) (hconf : ¬ ConfigCause op n g0) :
    check op n raw g0 =
      if op = .crcVer ∧ raw.length < g0.length - 1 then .refused
      else .ok (bitsOf (if op.isLrc then strip raw else raw)) (if op.isCrc then bitsOf g0 else []) := by
  obtain ⟨hraw, hpoly⟩ := not_or.mp (inputCause_iff.not.mp hin)
  obtain ⟨hn, hlen, hhead⟩ := by simpa only [not_or] using configCause_iff.not.mp hconf
  rw [check, if_neg hraw, if_neg hpoly, if_neg hn, if_neg hlen, if_neg hhead]
  rcases eq_or_ne op .crcVer with rfl | hop
  · simp [Op.isLrc, Op.isCrc]
  · simp [hop, apply_ite bitsOf]

theorem check_eq_invalidInput_iff : check op n raw g0 = .error .invalidInput ↔ InputCause op raw g0 := by
  refine ⟨fun h => ?_, check_of_inputCause⟩
  by_contra hin
  by_cases hconf : ConfigCause op n g0
  · cases (check_of_configCause hin hconf).symm.trans h
  · rw [check_of_no_cause hin hconf] at h
    split at h <;> cases h

theorem check_eq_invalidConfig_iff (hin : ¬ InputCause op raw g0) :
    check op n raw g0 = .error .invalidConfig ↔ ConfigCause op n g0 := by
  refine ⟨fun h => ?_, check_of_configCause hin⟩
  by_contra hconf
  rw [check_of_no_cause hin hconf] at h
  split at h <;> cases h

theorem check_eq_refused_iff :
    check op n raw g0 = .refused ↔
      ¬ InputCause op raw g0 ∧ ¬ ConfigCause op n g0 ∧ op = .crcVer ∧ raw.length < g0.length - 1 := by
  by_cases hin : InputCause op raw g0
  · simp [check_of_inputCause hin, hin]
  by_cases hconf : ConfigCause op n g0
  · simp [check_of_configCause hin hconf, hconf]
  · rw [check_of_no_cause hin hconf]
    simp only [hin, hconf, not_false_eq_true, true_and, ite_eq_left_iff, reduceCtorEq, imp_false, not_not]

/-- No cause leads the check to IllegalCommand, which only a reserved bit does (R150). -/
theorem check_ne_illegalCommand : check op n raw g0 ≠ .error .illegalCommand := by
  by_cases hin : InputCause op raw g0
  · rw [check_of_inputCause hin]
    nofun
  by_cases hconf : ConfigCause op n g0
  · rw [check_of_configCause hin hconf]
    nofun
  · rw [check_of_no_cause hin hconf]
    split <;> nofun

end Check

/-! ### What an instruction ends with -/

theorem responseOf_eq_error_iff {i : Instr} {s : State} {k : ErrorKind} :
    responseOf i s = some (.error k) ↔ check i.op i.blockSize s.raw s.g0 = .error k := by
  rw [responseOf_eq_response]
  cases check i.op i.blockSize s.raw s.g0 <;> simp [Checked.response]

theorem responseOf_of_exec {i : Instr} {s t : State} (h : exec i s = .next t) : responseOf i s = t.resp := by
  rw [responseOf, h]

/-- An instruction ends with an error status alone exactly when the check answers it (R152). -/
theorem exec_eq_raise_iff {i : Instr} {s : State} {k : ErrorKind} :
    exec i s = .next (s.raise k) ↔ check i.op i.blockSize s.raw s.g0 = .error k := by
  refine ⟨fun h => responseOf_eq_error_iff.mp (responseOf_of_exec h), fun h => ?_⟩
  rw [exec_eq_runChecked, runChecked, h]

theorem exec_eq_refused_iff {i : Instr} {s : State} {r : Refusal} :
    exec i s = .refused r ↔ r = .crcShortFrame ∧ check i.op i.blockSize s.raw s.g0 = .refused := by
  rcases exec_cases i s with ⟨k', hcheck, he⟩ | ⟨hcheck, he⟩ | ⟨p, g, hcheck, he⟩ <;>
    simp [he, hcheck, eq_comm]

/-- Settles O23: the status is the check's answer, and the check answers it for these causes, whatever else
it finds. -/
theorem invalidInputExactlyForItsCauses : Obligations.InvalidInputExactlyForItsCauses := fun _ _ =>
  exec_eq_raise_iff.trans check_eq_invalidInput_iff

/-- Settles O24: the hypotheses say that no cause of InvalidInput stands in the way of the check's answer. -/
theorem invalidConfigExactlyForItsCauses : Obligations.InvalidConfigExactlyForItsCauses := by
  intro i s hne hsx hsw hpoly
  have hin : ¬ InputCause i.op s.raw s.g0 := by
    rintro (h | h | ⟨hlrc, h⟩ | ⟨hcrc, h⟩)
    · exact hne h
    · exact hsx h
    · exact hsw hlrc h
    · exact h.elim (hpoly hcrc).1 (hpoly hcrc).2
  exact exec_eq_raise_iff.trans (check_eq_invalidConfig_iff hin)

/-- A polynomial that presents bits and begins with '1' gives no cause (e) to (g). -/
theorem not_configCause_crc {op : Op} (hcrc : op.isCrc = true) (n : Int) {g : Bits} (hlen : 2 ≤ g.length)
    (hhead : g.head? = some true) : ¬ ConfigCause op n (binary g) := by
  have hhead' : (binary g).head? = some .s1 := by simp [binary, hhead, symbolOf]
  rw [configCause_iff, hcrc, hhead', binary_length]
  simp [hlen.not_gt, -not_lt]

/-- Bits presented as symbols give no cause (a) to (d). -/
theorem not_inputCause_binary (op : Op) {p : Bits} (hp : p ≠ []) (g : Bits) :
    ¬ InputCause op (binary p) (binary g) := by
  simp [inputCause_iff, validate_binary hp, -List.any_eq_true, binary_any]

/-- Settles O25: the check refuses exactly the CRC.VER frames shorter than k - 1 among the commands with no
cause of an error, and nothing else of an instruction refuses. -/
theorem shortCrcFrameIsTheOnlyRefusal : Obligations.ShortCrcFrameIsTheOnlyRefusal := by
  refine ⟨fun pk n s p g hraw hg0 hp hlen hhead hshort => ?short, fun i s r h => ?only⟩
  case short =>
    refine exec_eq_refused_iff.mpr ⟨rfl, check_eq_refused_iff.mpr ?_⟩
    rw [hraw, hg0, binary_length, binary_length]
    exact ⟨not_inputCause_binary _ hp g, not_configCause_crc rfl n hlen hhead, rfl, hshort⟩
  case only =>
    obtain ⟨hr, hcheck⟩ := exec_eq_refused_iff.mp h
    obtain ⟨-, -, hver, hshort⟩ := check_eq_refused_iff.mp hcheck
    exact ⟨hr, hver, hshort⟩

/-! ### Words with a reserved bit set -/

theorem rsvField_toNat (w : Word) : (rsvField w).toNat = w.toNat / 16 % 4096 := by
  rw [rsvField, BitVec.extractLsb'_toNat, Nat.shiftRight_eq_div_pow]

theorem complete_of_reservedBits {s : State} (h : rsvField s.w0 ≠ 0#12) :
    complete s = .next (s.raise .illegalCommand) := by
  rcases complete_cases s with ⟨e, -, hc⟩ | ⟨i, hd, -⟩
  · exact hc
  · exact absurd (decode_eq_ok_iff.mp hd).1 h

/-- Settles O7: the decoder rejects the word before the operands are looked at, and the check, the only source
of a status once a word decodes, never answers this one. -/
theorem reservedBitsGiveIllegalCommandOnly : Obligations.ReservedBitsGiveIllegalCommandOnly := by
  refine ⟨fun s hb hr hrsv => ?reserved, fun i s t ht hresp => ?decoded⟩
  case reserved =>
    have hfield : rsvField s.w0 ≠ 0#12 := by
      rw [← rsvField_toNat] at hrsv
      exact fun h => hrsv (congrArg BitVec.toNat h)
    rw [step_of_busy hb hr, complete_of_reservedBits hfield]
    rfl
  case decoded =>
    exact check_ne_illegalCommand (responseOf_eq_error_iff.mp ((responseOf_of_exec ht).trans hresp))

end Sys2Proof.Machine
end

section
/-!
PROOFS. Reset, refused steps and whole runs (70_reset_and_hazards.md R161, R162, R163, R168, R170, R174).
-/

namespace Sys2Proof.Machine

/-! ### Reset -/

/-- Settles O11: the reset event is the step, whatever the block was doing. -/
theorem resetLeavesIdleWithNoResponse : Obligations.ResetLeavesIdleWithNoResponse :=
  ⟨⟨rfl, rfl⟩, fun s rest hm => ⟨resetInstance rest s, step_of_reset hm, rfl, rfl, rfl⟩⟩

/-- Settles O15: the buffers are empty, as PLEN and GLEN say, and there is no response. -/
theorem resetSatisfiesInvariant : Obligations.ResetSatisfiesInvariant where
  buffers := memory_wf_reset
  busy_absent _ := rfl
  present_answers := nofun

/-! ### Refused steps -/

theorem complete_refused {s : State} {r : Refusal} (h : complete s = .refused r) :
    r = .crcShortFrame ∧ respond s.command = none := by
  cases hresp : respond s.command with
  | none =>
    rw [complete_of_respond_none hresp] at h
    cases h
    exact ⟨rfl, rfl⟩
  | some r' =>
    obtain ⟨w, hc⟩ := complete_of_respond hresp
    cases hc.symm.trans h

theorem issue_refused {c : Command} {rest : List HostMove} {s : State} {r : Refusal}
    (h : issue c rest s = .refused r) :
    (r = .outsideCapacity ∧ admits s.capacity c = false) ∨ (r = .notACommand ∧ ¬ c.WellFormed) := by
  rcases issue_cases c rest s with ⟨hc, hi⟩ | ⟨-, -, hi⟩ | ⟨-, ha, hi⟩ <;> cases hi.symm.trans h
  · exact .inr ⟨rfl, hc⟩
  · exact .inl ⟨rfl, ha⟩

theorem readResponse_refused {rest : List HostMove} {s : State} {r : Refusal}
    (h : readResponse rest s = .refused r) : r = .readAbsent ∧ s.resp = none := by
  rcases readResponse_cases rest s with ⟨_, -, hr⟩ | ⟨habsent, hr⟩ <;> cases hr.symm.trans h
  exact ⟨rfl, habsent⟩

/-- Settles O13: a reset and waiting go on; each of the other three kinds of step has its own reasons. -/
theorem stepRefusesOnlyForNamedReasons : Obligations.StepRefusesOnlyForNamedReasons := by
  intro s r h
  rcases step_cases s with ⟨rest, -, hs⟩ | ⟨hb, -, hs⟩ | ⟨-, -, hs⟩ | ⟨c, rest, hb, hm, hs⟩ |
    ⟨rest, hb, hm, hs⟩ <;> rw [hs] at h
  case inl => cases h
  case inr.inl =>
    obtain ⟨hr, hnone⟩ := complete_refused h
    exact .inl ⟨hr, hb, hnone⟩
  case inr.inr.inl => cases h
  case inr.inr.inr.inl => exact .inr (.inr ⟨hb, c, rest, hm, issue_refused h⟩)
  case inr.inr.inr.inr =>
    obtain ⟨hr, habsent⟩ := readResponse_refused h
    exact .inr (.inl ⟨hr, hb, habsent, rest, hm⟩)

/-! ### The end of a run -/

/-- A response that is present stays with the block when the HOST reads it. -/
theorem step_of_read_present {s : State} {r : Response} {rest : List HostMove} (hb : s.busy = false)
    (hm : s.host.moves = .read :: rest) (hr : s.resp = some r) :
    step s = .next { s with host := { moves := rest, received := s.host.received ++ [r] } } := by
  rw [step_of_read hb hm, readResponse_of_present hr]

/-- Settles O60: `complete` leaves the moves alone and a response present; after it only waiting, reads and
resets are left, and only a reset takes the response away. -/
theorem runEndsWhenLastCommandCompletes : Obligations.RunEndsWhenLastCommandCompletes := by
  refine ⟨fun s hb hr hleft hresp => ?completes, fun s hb hfin => ?busy, fun s hfin => ?after⟩
  case completes =>
    obtain ⟨r, hr'⟩ := Option.ne_none_iff_exists'.mp hresp
    obtain ⟨w, hc⟩ := complete_of_respond hr'
    exact ⟨_, (step_of_busy hb hr).trans hc, rfl, rfl, hleft⟩
  case busy =>
    obtain ⟨hidle, -, -⟩ := hfin
    cases hb.symm.trans hidle
  case after =>
    obtain ⟨hidle, hpresent, hleft⟩ := id hfin
    match hm : s.host.moves with
    | [] => exact ⟨s, step_of_waiting hidle hm, .inl ⟨hfin, rfl⟩⟩
    | .issue c :: rest =>
      rw [hm] at hleft
      cases hleft
    | .reset :: rest => exact ⟨_, step_of_reset hm, .inr ⟨rest, rfl, rfl, rfl⟩⟩
    | .read :: rest =>
      obtain ⟨r, hr⟩ := Option.isSome_iff_exists.mp hpresent
      rw [hm] at hleft
      exact ⟨_, step_of_read_present hidle hm hr, .inl ⟨⟨hidle, hpresent, hleft⟩, rfl⟩⟩

/-! ### Sessions -/

theorem run_succ_of_step {s t : State} (h : step s = .next t) (k : Nat) :
    Host.Core.run Sys2Proof.core (k + 1) s = Host.Core.run Sys2Proof.core k t := by
  have hs : Sys2Proof.core.step s = .next t := h
  simp only [Host.Core.run, hs]

/-- `issue`, `complete` and `read` of one command (R163): the HOST has its response, the block keeps it and
is idle again, and any run goes on from there. -/
theorem run_issue_complete_read {s : State} {c : Command} {r : Response} {rest : List HostMove}
    (hb : s.busy = false) (hm : s.host.moves = .issue c :: .read :: rest) (hc : c.WellFormed)
    (ha : admits s.capacity c = true) (hr : respond c = some r) :
    ∃ t : State, (∀ k, Host.Core.run Sys2Proof.core (k + 3) s = Host.Core.run Sys2Proof.core k t) ∧
      t.busy = false ∧ t.resp = some r ∧ t.capacity = s.capacity ∧
      t.host = { moves := rest, received := s.host.received ++ [r] } := by
  have hissue : step s = .next ((loadCommand c s).hostNext (.read :: rest)) := by
    rw [step_of_issue hb hm, issue_of_wellFormed hc, if_pos ha]
  obtain ⟨w, hdone⟩ := complete_of_respond (s := (loadCommand c s).hostNext (.read :: rest)) hr
  have hcomplete := (step_of_busy rfl rfl).trans hdone
  have hread := step_of_read_present (r := r) (rest := rest)
    (s := { (loadCommand c s).hostNext (.read :: rest) with busy := false, resp := some r, work := w })
    rfl rfl rfl
  have hrun (k : Nat) := calc Host.Core.run Sys2Proof.core (k + 3) s
    _ = _ := run_succ_of_step hissue (k + 2)
    _ = _ := run_succ_of_step hcomplete (k + 1)
    _ = _ := run_succ_of_step hread k
  exact ⟨_, hrun, rfl, rfl, rfl, rfl⟩

theorem session_cons (c : Command) (cs : List Command) :
    session (c :: cs) = .issue c :: .read :: session cs := rfl

/-- A whole session, by induction on its commands: each one takes three steps and leaves an idle block for the
next, and the last response stays present. -/
theorem run_session (cs : List Command) {s : State} (hb : s.busy = false) (hm : s.host.moves = session cs)
    (hcs : ∀ c ∈ cs, c.WellFormed ∧ admits s.capacity c = true ∧ respond c ≠ none) :
    ∃ t, Host.Core.run Sys2Proof.core (3 * cs.length) s = .next t ∧ t.busy = false ∧ t.host.moves = [] ∧
      t.host.received = s.host.received ++ cs.filterMap respond ∧
      (s.resp.isSome ∨ cs ≠ [] → t.resp.isSome) := by
  induction cs generalizing s with
  | nil => exact ⟨s, rfl, hb, hm, (List.append_nil _).symm, fun h => h.resolve_right (absurd rfl)⟩
  | cons c cs ih =>
    obtain ⟨⟨hc, ha, hresp⟩, hrest⟩ := List.forall_mem_cons.mp hcs
    obtain ⟨r, hr⟩ := Option.ne_none_iff_exists'.mp hresp
    obtain ⟨u, hrun, hu, hpresent, hcap, hhost⟩ :=
      run_issue_complete_read hb (hm.trans (session_cons c cs)) hc ha hr
    obtain ⟨t, ht, htb, htm, hreceived, htresp⟩ := ih hu (by rw [hhost]) (hcap ▸ hrest)
    refine ⟨t, (hrun _).trans ht, htb, htm, ?_, fun _ => htresp (.inl (by rw [hpresent]; rfl))⟩
    rw [hreceived, hhost, List.filterMap_cons_some hr, List.append_assoc, List.singleton_append]

/-- Settles O18: the run of a session, whose end has no move left, and a response if there was a command. -/
theorem sessionDeliversEachResponse : Obligations.SessionDeliversEachResponse := by
  intro s cs hb hm hcs
  obtain ⟨t, ht, htb, htm, hreceived, htresp⟩ := run_session cs hb hm hcs
  refine ⟨t, ht, htb, htm, hreceived, fun hne => ⟨htb, htresp (.inr hne), ?_⟩⟩
  rw [htm, noIssueLeft_nil]

end Sys2Proof.Machine
end
